-- ==== Sys2Proof/Word.lean ====
section
/-! DEFINITION. The widths of UVOX-CORE's values (spec/00_scope.md R10, R12, R13; spec/43_arithmetic_laws_and_absent_families.md R205). -/

namespace Sys2Proof

/-- One text cell, `W_CHAR = 8` bits (00_scope.md R10). -/
abbrev Byte := BitVec 8

/-- One field of an Address, `W_FIELD = 64` bits (00_scope.md R10). -/
abbrev Field := BitVec 64

/-- One field of a Delta, `W_DELTA = 128` bits, two's complement (00_scope.md R10, 10_state.md R32). -/
abbrev DeltaField := BitVec 128

/-- The packed word, `W_PACKED = 256` bits (00_scope.md R10, 30_encoding.md R60). -/
abbrev Packed := BitVec 256

/-- The command word, `W_CMD = 16` bits (00_scope.md R10, 30_encoding.md R55). -/
abbrev CmdWord := BitVec 16

/-- `uZ(b)`: the bits read as unsigned (00_scope.md R13). -/
abbrev uZ {n : Nat} (b : BitVec n) : Int := (b.toNat : Int)

/-- `sZ(b)`: the bits read as two's complement (00_scope.md R13). -/
abbrev sZ {n : Nat} (b : BitVec n) : Int := b.toInt

/-- `bits_N(z)`: the `N` bits whose unsigned value is `z mod 2^N` (00_scope.md R13). -/
abbrev bitsN (n : Nat) (z : Int) : BitVec n := BitVec.ofInt n z

end Sys2Proof
end

