-- ==== Sys2Proof/Config.lean ====
section
/-! DEFINITION. The implementation parameters of UVOX-CORE (spec/00_scope.md R10): fixed when the block is built, changed by no operation (10_state.md R22, 70_reset_and_hazards.md R187). -/

namespace Sys2Proof

/-- `SIGN_CONV` (30_encoding.md R60): how the signed codes become the two low fields of the packed word. -/
inductive SignConv where
  | bias
  | bitcast
deriving DecidableEq, Repr

/-- `RADIUS_HIGH` (41_delta.md R113): the result of APPLY when the radius sum exceeds 2^64 - 1. -/
inductive RadiusHigh where
  | saturate
  | wrap
deriving DecidableEq, Repr

/-- `HEX_UPPER` (40_codec.md R96): whether FROMHEX takes the digits `A` to `F`. -/
inductive HexUpper where
  | accept
  | reject
deriving DecidableEq, Repr

/-- The parameters a block is built with (00_scope.md R10). -/
structure Config where
  signConv   : SignConv
  radiusHigh : RadiusHigh
  hexUpper   : HexUpper
  /-- `SNAP_TAG`; its length is `SNAP_TAG_LEN`, at most 191 (10_state.md R28). -/
  snapTag    : List Byte
deriving DecidableEq, Repr

namespace Config

/-- `SNAP_TAG_LEN` must be at most 191, so that `rtlen` fits 8 bits (10_state.md R28). -/
def wf (c : Config) : Bool := decide (c.snapTag.length ≤ 191)

/-- `SNAP_TAG_LEN` is OPEN (00_scope.md R10, 92_eei_decisions.md D16): any of 0 to 191. A constant without a body; log entry 3. -/
opaque openTagLen : Fin 192

/-- `SNAP_TAG[j]` is OPEN (00_scope.md R10, 92_eei_decisions.md D16). A constant without a body; log entry 3. -/
opaque openTagByte : Nat → Byte

/-- A block built with the defaults of 00_scope.md R10 and a tag nothing is known of. -/
def default : Config where
  signConv   := .bias
  radiusHigh := .saturate
  hexUpper   := .accept
  snapTag    := (List.range openTagLen.val).map openTagByte

end Config
end Sys2Proof
end

