-- ==== Sys2Proof/Machine/State.lean ====
section
/-! DEFINITION. The state of the machine: the block's ports, its reset input and its parameters (spec/10_state.md R20 to R38). The block itself keeps nothing between transactions (R20). -/

namespace Sys2Proof.Machine

/-- The bus form of an Address: four 64-bit sub-ports, the codes in two's complement (10_state.md R29, R30). -/
structure Address where
  frame  : Field
  radius : Field
  lat    : Field
  lon    : Field
deriving DecidableEq, Repr

/-- The bus form of a Delta: three 128-bit two's complement sub-ports (10_state.md R32). -/
structure Delta where
  dr   : DeltaField
  dlat : DeltaField
  dlon : DeltaField
deriving DecidableEq, Repr

/-- Four raw field values, the port group `x` of ENC and `y` of DEC (10_state.md R27, R28). -/
structure Raw where
  frameId  : Field
  radius   : Field
  latMicro : Field
  lonMicro : Field
deriving DecidableEq, Repr

/-- The outcome of a transaction (60_exceptions.md R161): five members, since the codes 5, 6 and 7 are never produced (93_implementation_defined.md I12). The numeric codes are `statusCode` in Flags.lean. -/
inductive Status where
  | ok
  | parseError
  | precisionRange
  | crossFrame
  | illegalCmd
deriving DecidableEq, Repr

/-- The operand ports (10_state.md R27). -/
structure Operands where
  cmd  : CmdWord
  x    : Raw
  a    : Address
  b    : Address
  d    : Delta
  p    : Packed
  q    : Packed
  t    : Vector Byte 64
  tlen : BitVec 8
deriving DecidableEq, Repr

/-- The result ports (10_state.md R28). A port that is absent is `none` (60_exceptions.md R166, glossary of 00_scope.md). `rt` lists the cells below `rtlen`: the cells from there on are absent. -/
structure Results where
  status : Option Status
  ra     : Option Address
  y      : Option Raw
  rd     : Option Delta
  rp     : Option Packed
  rt     : Option (List Byte)
  rtlen  : Option (BitVec 8)
  /-- 1 is true (10_state.md R28). -/
  rf     : Option Bool
deriving DecidableEq, Repr

/-- The machine. `cfg` is fixed when the block is built; `rst` is the reset input, true while asserted (70_reset_and_hazards.md R185); `inp` is what the host drives; `out` is what the latest transaction delivered. -/
structure State where
  cfg : Config
  rst : Bool
  inp : Operands
  out : Results
deriving DecidableEq, Repr

/-- Nothing raises a fault: every error of the block is a value of the `status` port (60_exceptions.md R160, R172). Safe: no run stops here. -/
inductive Fault where
deriving DecidableEq, Repr

/-- What the model declines. -/
inductive Refusal where
  /-- Raised only by an arm of `exec` that has no meaning yet; no arm is left in that condition. Safe. -/
  | notModelled (mnemonic : String)
deriving DecidableEq, Repr

/-- The three outcomes of a step of this machine. -/
abbrev Outcome := Host.Outcome State Fault Refusal

/-- Every result port absent (10_state.md R37, 60_exceptions.md R166). -/
def Results.absent : Results where
  status := none
  ra := none
  y := none
  rd := none
  rp := none
  rt := none
  rtlen := none
  rf := none

/-- The operand ports with every bit 0. The spec gives an input port no value of its own; DESIGN CHOICE, log entry 4. -/
def Operands.zero : Operands where
  cmd := 0
  x := ⟨0, 0, 0, 0⟩
  a := ⟨0, 0, 0, 0⟩
  b := ⟨0, 0, 0, 0⟩
  d := ⟨0, 0, 0⟩
  p := 0
  q := 0
  t := Vector.replicate 64 0
  tlen := 0

/-- The block right after reset, released and ready (70_reset_and_hazards.md R185): no result port driven (10_state.md R37). -/
def State.reset : State where
  cfg := Config.default
  rst := false
  inp := Operands.zero
  out := Results.absent

end Sys2Proof.Machine
end

