-- ==== Sys2Proof/Machine/Ops.lean ====
section
/-! DEFINITION. The operations the instructions share: the packed word, the hex text, the normalisation of APPLY, truncation, and the delivery of a result or of an error (spec/30_encoding.md, 40_codec.md, 41_delta.md, 42_comparator.md, 60_exceptions.md). -/

namespace Sys2Proof.Machine

/-! The numeric constants of 00_scope.md R10. -/

/-- `LAT_MAX`, the pole, in millionths of a degree. -/
def latMax : Nat := 90000000

/-- `LON_HALF`, half a turn. -/
def lonHalf : Nat := 180000000

/-- `LON_PERIOD`, a full turn. -/
def lonPeriod : Nat := 360000000

/-- `LAT_BIAS` (30_encoding.md R60). -/
def latBias : Nat := 90000000

/-- `LON_BIAS` (30_encoding.md R60). -/
def lonBias : Nat := 180000000

/-- `BITS_PER_UNIT`. -/
def bitsPerUnit : Nat := 5

/-- `MAX_UNITS`, the largest count of units in range (42_comparator.md R141). -/
def maxUnits : Nat := 51

/-- `HEX_LEN`, the characters of the hex text. -/
def hexLen : Nat := 64

/-- The largest value of a 64-bit field, `2^64 - 1`. -/
def fieldMax : Int := 18446744073709551615

/-- `emod(x, m)`, the Euclidean remainder, for `m > 0` (00_scope.md R13, 43_arithmetic_laws_and_absent_families.md R207). -/
def emod (x : Int) (m : Nat) : Int := x % (m : Int)

/-- `ceil_div(x, m)`, for `m > 0`: the least `q` with `q * m ≥ x` (00_scope.md R13). -/
def ceilDiv (x m : Nat) : Nat := (x + m - 1) / m

/-! The packed word. -/

/-- A signed code as a field of the packed word: biased modulo 2^64, or its bit pattern (30_encoding.md R60, R61). -/
def codeField (c : Config) (bias : Nat) (code : Field) : Field :=
  match c.signConv with
  | .bias => bitsN 64 (sZ code + bias)
  | .bitcast => bitsN 64 (sZ code)

/-- The signed code of a field of the packed word (30_encoding.md R62). -/
def fieldCode (c : Config) (bias : Nat) (field : Field) : Field :=
  match c.signConv with
  | .bias => bitsN 64 (uZ field - bias)
  | .bitcast => field

/-- `latfield` (30_encoding.md R60). -/
def latField (c : Config) (code : Field) : Field := codeField c latBias code

/-- `lonfield` (30_encoding.md R60). -/
def lonField (c : Config) (code : Field) : Field := codeField c lonBias code

/-- `pack(A) = frame_id ‖ radius ‖ latfield ‖ lonfield` (30_encoding.md R60, 20_memory.md R44). -/
def pack (c : Config) (a : Address) : Packed :=
  a.frame ++ a.radius ++ latField c a.lat ++ lonField c a.lon

/-- `unpack(P)` (30_encoding.md R62). -/
def unpack (c : Config) (p : Packed) : Address where
  frame  := p.extractLsb' 192 64
  radius := p.extractLsb' 128 64
  lat    := fieldCode c latBias (p.extractLsb' 64 64)
  lon    := fieldCode c lonBias (p.extractLsb' 0 64)

/-- The packed word written out as 32 bytes: byte 0 is bits 255:248, byte 31 is bits 7:0 (20_memory.md R45). The block never splits the word; this is the host's view of it. -/
def packedBytes (p : Packed) : List Byte :=
  (List.range 32).map fun k => p.extractLsb' (248 - 8 * k) 8

/-! The hex text. -/

/-- `hexdigit(v)` (40_codec.md R96). -/
def hexDigit (v : BitVec 4) : Byte :=
  if v.toNat ≤ 9 then BitVec.ofNat 8 (0x30 + v.toNat) else BitVec.ofNat 8 (0x61 + (v.toNat - 10))

/-- `hexval(c)`, `none` for a cell that is no hex digit (40_codec.md R96, R101). -/
def hexVal (c : Config) (cell : Byte) : Option (BitVec 4) :=
  if 0x30 ≤ cell.toNat ∧ cell.toNat ≤ 0x39 then some (BitVec.ofNat 4 (cell.toNat - 0x30))
  else if 0x61 ≤ cell.toNat ∧ cell.toNat ≤ 0x66 then some (BitVec.ofNat 4 (cell.toNat - 0x61 + 10))
  else if 0x41 ≤ cell.toNat ∧ cell.toNat ≤ 0x46 ∧ c.hexUpper = .accept then
    some (BitVec.ofNat 4 (cell.toNat - 0x41 + 10))
  else none

/-- Digit `i` of a packed word, digit 0 the most significant: bits `255 - 4i : 252 - 4i` (30_encoding.md R65). -/
def nibble (p : Packed) (i : Nat) : BitVec 4 := p.extractLsb' (252 - 4 * i) 4

/-- The 64 hex digits of a packed word, most significant first (30_encoding.md R65, 20_memory.md R46). -/
def hexText (p : Packed) : List Byte := (List.range hexLen).map fun i => hexDigit (nibble p i)

/-- The values of a text's cells, `none` as soon as one is no hex digit (40_codec.md R100). -/
def hexVals (c : Config) : List Byte → Option (List (BitVec 4))
  | [] => some []
  | cell :: rest =>
    match hexVal c cell, hexVals c rest with
    | some v, some vs => some (v :: vs)
    | _, _ => none

/-- The number a list of hex digits spells, the first digit most significant. -/
def digitsValue (vs : List (BitVec 4)) : Nat := vs.foldl (fun acc v => acc * 16 + v.toNat) 0

/-- `v[0] ‖ v[1] ‖ ...`, the first digit most significant (40_codec.md R100). -/
def joinDigits (vs : List (BitVec 4)) : Packed :=
  BitVec.ofNat 256 (digitsValue vs)

/-- The packed word a text spells, `none` when its length is not 64 or a cell is no hex digit (40_codec.md R100, 60_exceptions.md R162). -/
def parseHex (c : Config) (t : Vector Byte 64) (tlen : BitVec 8) : Option Packed :=
  if tlen.toNat = hexLen then (hexVals c t.toList).map joinDigits else none

/-! APPLY and SUB. -/

/-- Step 1 of APPLY: the radius sum over the integers, 0 below, by `RADIUS_HIGH` above (41_delta.md R112, R113). -/
def applyRadius (c : Config) (radius : Field) (dr : DeltaField) : Field :=
  let s := uZ radius + sZ dr
  if s < 0 then 0
  else if fieldMax < s then
    match c.radiusHigh with
    | .saturate => bitsN 64 fieldMax
    | .wrap => bitsN 64 s
  else bitsN 64 s

/-- One turn of the pole loop: reflect at the pole that was passed and turn the meridian by half a turn (41_delta.md R112 step 3, R115). The pair is `(lat', lon')`. -/
def poleTurn (z : Int × Int) : Int × Int :=
  if (latMax : Int) < z.1 then ((lonHalf : Int) - z.1, z.2 + lonHalf)
  else (-(lonHalf : Int) - z.1, z.2 + lonHalf)

/-- The pole loop, one loop over both poles, cut off after `fuel` turns (41_delta.md R112 step 3, R115). `crossings` turns are enough. -/
def poleLoop : Nat → Int × Int → Int × Int
  | 0, z => z
  | fuel + 1, z =>
    if (latMax : Int) < z.1 ∨ z.1 < -(latMax : Int) then poleLoop fuel (poleTurn z) else z

/-- Step 4 of APPLY, the safety clamp (41_delta.md R112, R117). -/
def clampLat (lat : Int) : Int := min (max lat (-(latMax : Int))) latMax

/-- Step 5 of APPLY: the longitude brought into [-180 000 000, 180 000 000) (41_delta.md R119). -/
def wrapLon (lon : Int) : Int := emod (lon + lonHalf) lonPeriod - lonHalf

/-- Steps 3 to 5 as the document lists them, the loop cut off after `fuel` turns (41_delta.md R112). `normalise` is what the block computes; that the two agree is an obligation. -/
def normaliseByLoop (fuel : Nat) (lat lon : Int) : Int × Int :=
  let z := poleLoop fuel (lat, lon)
  (clampLat z.1, wrapLon z.2)

/-- `k`, the number of pole crossings (41_delta.md R115, R116). -/
def crossings (lat : Int) : Nat :=
  if lat.natAbs ≤ latMax then 0 else ceilDiv (lat.natAbs - latMax) lonHalf

/-- The reflected latitude, `sgn * (-1)^k * (|x| - 180 000 000 * k)` (41_delta.md R116). -/
def reflectLat (lat : Int) : Int :=
  let k := crossings lat
  let m := (lat.natAbs : Int) - lonHalf * k
  if decide (0 ≤ lat) = decide (k % 2 = 0) then m else -m

/-- Steps 3 to 5 in the closed form the block is expected to compute (41_delta.md R116). -/
def normalise (lat lon : Int) : Int × Int :=
  (reflectLat lat, wrapLon (lon + lonHalf * (crossings lat % 2)))

/-- APPLY: the Address plus the Delta (41_delta.md R112). The sums are over the integers (R114). -/
def applyDelta (c : Config) (a : Address) (d : Delta) : Address :=
  let z := normalise (sZ a.lat + sZ d.dlat) (sZ a.lon + sZ d.dlon)
  { frame := a.frame, radius := applyRadius c a.radius d.dr, lat := bitsN 64 z.1, lon := bitsN 64 z.2 }

/-- SUB: the plain field-wise difference, `a` minus `b` (41_delta.md R125, R127). -/
def addressDiff (a b : Address) : Delta where
  dr   := bitsN 128 (uZ a.radius - uZ b.radius)
  dlat := bitsN 128 (sZ a.lat - sZ b.lat)
  dlon := bitsN 128 (sZ a.lon - sZ b.lon)

/-! Truncation. -/

/-- `mask(n)`: `5n` ones, then `256 - 5n` zeros (42_comparator.md R140). -/
def unitMask (n : Nat) : Packed := BitVec.ofNat 256 (2 ^ 256 - 2 ^ (256 - bitsPerUnit * n))

/-- `truncP(P, n)` (42_comparator.md R140). -/
def truncWord (p : Packed) (n : Nat) : Packed := p &&& unitMask n

/-- The SNAP token: the tag, then the hex digits of the truncated word (42_comparator.md R153). -/
def snapText (c : Config) (p : Packed) (n : Nat) : List Byte := c.snapTag ++ hexText (truncWord p n)

/-! Delivering a result. -/

/-- OK with an Address (10_state.md R28, R34). -/
def Results.okAddress (a : Address) : Results := { Results.absent with status := some .ok, ra := some a }

/-- OK with raw values. -/
def Results.okRaw (y : Raw) : Results := { Results.absent with status := some .ok, y := some y }

/-- OK with a Delta. -/
def Results.okDelta (d : Delta) : Results := { Results.absent with status := some .ok, rd := some d }

/-- OK with a packed word. -/
def Results.okPacked (p : Packed) : Results := { Results.absent with status := some .ok, rp := some p }

/-- OK with a text; `rtlen` is the number of its cells (10_state.md R28). -/
def Results.okText (t : List Byte) : Results :=
  { Results.absent with status := some .ok, rt := some t, rtlen := some (BitVec.ofNat 8 t.length) }

/-- OK with a truth value. -/
def Results.okFlag (f : Bool) : Results := { Results.absent with status := some .ok, rf := some f }

/-- An error: its code and nothing else (00_scope.md R14, 60_exceptions.md R165, R166). -/
def Results.error (e : Status) : Results := { Results.absent with status := some e }

/-- The end of a transaction: all result ports are driven together, each afresh (10_state.md R23, R26). Nothing else changes (R20). -/
def State.deliver (r : Results) (s : State) : State := { s with out := r }

/-- `raise <Status>` (00_scope.md R14): the one way an operation reports an error. There is no trap entry: nothing is saved and control goes nowhere (60_exceptions.md R172), so there is no return from one either (R173). -/
def raise (e : Status) (s : State) : Outcome := .next (s.deliver (Results.error e))

/-- The end of an operation that does not raise (00_scope.md R14). -/
def finish (r : Results) (s : State) : Outcome := .next (s.deliver r)

end Sys2Proof.Machine
end

