-- ==== Sys2Proof/Machine/Operands.lean ====
section
/-! DEFINITION. The operand forms: what an operation reads of the sampled ports (spec/10_state.md R27, R34; spec/30_encoding.md R58). -/

namespace Sys2Proof.Machine

/-- `pk = 0`: the packed word of the Address on port `a` (30_encoding.md R58). -/
def wordA (s : State) : Packed := pack s.cfg s.inp.a

/-- `pk = 0`: the packed word of the Address on port `b` (30_encoding.md R58). -/
def wordB (s : State) : Packed := pack s.cfg s.inp.b

/-- `pk = 1`: the packed word on port `p`, as given (30_encoding.md R58). -/
def wordP (s : State) : Packed := s.inp.p

/-- `pk = 1`: the packed word on port `q`, as given (30_encoding.md R58). -/
def wordQ (s : State) : Packed := s.inp.q

/-- Port `x` as an Address: wiring, no clamp and no bias (40_codec.md R81, R82). -/
def addressOfX (s : State) : Address where
  frame  := s.inp.x.frameId
  radius := s.inp.x.radius
  lat    := s.inp.x.latMicro
  lon    := s.inp.x.lonMicro

/-- Port `a` as four raw values (40_codec.md R84). -/
def rawOfA (s : State) : Raw where
  frameId  := s.inp.a.frame
  radius   := s.inp.a.radius
  latMicro := s.inp.a.lat
  lonMicro := s.inp.a.lon

/-- The text on ports `t` and `tlen` as a packed word (40_codec.md R100). -/
def wordOfText (s : State) : Option Packed := parseHex s.cfg s.inp.t s.inp.tlen

end Sys2Proof.Machine
end

