-- ==== Sys2Proof/Machine/Codec.lean ====
section
/-! DEFINITION. The Coordinate Codec: ENC, DEC, PACK, UNPACK, TOHEX, FROMHEX (spec/40_codec.md). -/

namespace Sys2Proof.Machine

/-- ENC (40_codec.md R81, R82): a copy, bit for bit. -/
def execEnc (s : State) : Outcome := finish (Results.okAddress (addressOfX s)) s

/-- DEC (40_codec.md R84). -/
def execDec (s : State) : Outcome := finish (Results.okRaw (rawOfA s)) s

/-- PACK (40_codec.md R87). -/
def execPack (s : State) : Outcome := finish (Results.okPacked (wordA s)) s

/-- UNPACK (40_codec.md R90). -/
def execUnpack (s : State) : Outcome := finish (Results.okAddress (unpack s.cfg (wordP s))) s

/-- TOHEX (40_codec.md R94): always 64 cells. -/
def execTohex (s : State) : Outcome := finish (Results.okText (hexText (wordA s))) s

/-- FROMHEX (40_codec.md R100, R101). -/
def execFromhex (s : State) : Outcome :=
  match wordOfText s with
  | some p => finish (Results.okAddress (unpack s.cfg p)) s
  | none => raise .parseError s

end Sys2Proof.Machine
end

