-- ==== Sys2Proof/Machine/Flags.lean ====
section
/-! DEFINITION. The two result ports that look like flags, `status` and `rf`, and the checks that decide them (spec/10_state.md R23; spec/60_exceptions.md R161). Neither is state: each is driven afresh in every transaction. -/

namespace Sys2Proof.Machine

/-- The 3-bit code of an outcome (60_exceptions.md R161). -/
def statusCode : Status → BitVec 3
  | .ok => 0
  | .parseError => 1
  | .precisionRange => 2
  | .crossFrame => 3
  | .illegalCmd => 4

/-- What a host reads on the wires of the `status` port, `none` while it is absent (10_state.md R28, R37). -/
def statusPort (s : State) : Option (BitVec 3) := s.out.status.map statusCode

/-- The count of units is in range: 0 to 51 (42_comparator.md R141, 60_exceptions.md R168). -/
def unitsInRange (n : Nat) : Bool := decide (n ≤ maxUnits)

/-- The two Addresses are of one frame, as 64-bit patterns (41_delta.md R126, 60_exceptions.md R163). -/
def sameFrame (a b : Address) : Bool := a.frame == b.frame

/-- `rf` of EQ: all four sub-ports agree (42_comparator.md R136). -/
def exactEqual (a b : Address) : Bool :=
  a.frame == b.frame && a.radius == b.radius && a.lat == b.lat && a.lon == b.lon

/-- `rf` of EQW: the truncations agree (42_comparator.md R147, R148). -/
def equalWithin (p q : Packed) (n : Nat) : Bool := truncWord p n == truncWord q n

end Sys2Proof.Machine
end

