-- ==== Sys2Proof/Machine/Comparator.lean ====
section
/-! DEFINITION. The Tolerance Comparator: EQ, TRUNC, EQW, SNAP (spec/42_comparator.md). -/

namespace Sys2Proof.Machine

/-- EQ (42_comparator.md R136): Addresses of different frames are unequal, which is no error. -/
def execEq (s : State) : Outcome := finish (Results.okFlag (exactEqual s.inp.a s.inp.b)) s

/-- The range check comes first and looks at the count alone (60_exceptions.md R168). -/
def withUnits (n : Nat) (r : Results) (s : State) : Outcome :=
  if unitsInRange n then finish r s else raise .precisionRange s

/-- TRUNC.A (42_comparator.md R143). -/
def execTruncA (n : Nat) (s : State) : Outcome :=
  withUnits n (Results.okPacked (truncWord (wordA s) n)) s

/-- TRUNC.P (42_comparator.md R144). -/
def execTruncP (n : Nat) (s : State) : Outcome :=
  withUnits n (Results.okPacked (truncWord (wordP s) n)) s

/-- EQW.A (42_comparator.md R147). -/
def execEqwA (n : Nat) (s : State) : Outcome :=
  withUnits n (Results.okFlag (equalWithin (wordA s) (wordB s) n)) s

/-- EQW.P (42_comparator.md R148). -/
def execEqwP (n : Nat) (s : State) : Outcome :=
  withUnits n (Results.okFlag (equalWithin (wordP s) (wordQ s) n)) s

/-- SNAP.A (42_comparator.md R153). -/
def execSnapA (n : Nat) (s : State) : Outcome :=
  withUnits n (Results.okText (snapText s.cfg (wordA s) n)) s

/-- SNAP.P (42_comparator.md R154). -/
def execSnapP (n : Nat) (s : State) : Outcome :=
  withUnits n (Results.okText (snapText s.cfg (wordP s) n)) s

end Sys2Proof.Machine
end

