-- ==== Sys2Proof/Machine/Delta.lean ====
section
/-! DEFINITION. The Delta Arithmetic: APPLY and SUB (spec/41_delta.md). -/

namespace Sys2Proof.Machine

/-- APPLY (41_delta.md R112): never fails. -/
def execApply (s : State) : Outcome :=
  finish (Results.okAddress (applyDelta s.cfg s.inp.a s.inp.d)) s

/-- SUB (41_delta.md R125, R126). -/
def execSub (s : State) : Outcome :=
  if sameFrame s.inp.a s.inp.b then finish (Results.okDelta (addressDiff s.inp.a s.inp.b)) s
  else raise .crossFrame s

end Sys2Proof.Machine
end

