-- ==== Sys2Proof/Syntax.lean ====
section
/-! DEFINITION. The operations of UVOX-CORE: one constructor per row of spec/opcode_table.json (spec/30_encoding.md R59). -/

namespace Sys2Proof

/-- The fifteen command forms (30_encoding.md R59). `n` is the count of significant units (R57); a command word carries 0 to 255 (`WellFormed`). -/
inductive Instr where
  | enc
  | dec
  | pack
  | unpack
  | tohex
  | fromhex
  | apply
  | sub
  | eq
  | truncA (n : Nat)
  | truncP (n : Nat)
  | eqwA (n : Nat)
  | eqwP (n : Nat)
  | snapA (n : Nat)
  | snapP (n : Nat)
deriving DecidableEq, Repr

end Sys2Proof
end

