-- ==== Sys2Proof/Machine/Dispatch.lean ====
section
/-! DEFINITION. One arm per operation (spec/30_encoding.md R59). -/

namespace Sys2Proof.Machine

/-- What one command does to the state: the operation on the operands as they stand on the ports. -/
def exec (i : Instr) (s : State) : Host.Outcome State Fault Refusal :=
  match i with
  | .enc => Sys2Proof.Machine.execEnc s
  | .dec => Sys2Proof.Machine.execDec s
  | .pack => Sys2Proof.Machine.execPack s
  | .unpack => Sys2Proof.Machine.execUnpack s
  | .tohex => Sys2Proof.Machine.execTohex s
  | .fromhex => Sys2Proof.Machine.execFromhex s
  | .apply => Sys2Proof.Machine.execApply s
  | .sub => Sys2Proof.Machine.execSub s
  | .eq => Sys2Proof.Machine.execEq s
  | .truncA n => Sys2Proof.Machine.execTruncA n s
  | .truncP n => Sys2Proof.Machine.execTruncP n s
  | .eqwA n => Sys2Proof.Machine.execEqwA n s
  | .eqwP n => Sys2Proof.Machine.execEqwP n s
  | .snapA n => Sys2Proof.Machine.execSnapA n s
  | .snapP n => Sys2Proof.Machine.execSnapP n s

end Sys2Proof.Machine
end

