-- ==== Sys2Proof/WellFormed.lean ====
section
/-! DEFINITION. Which terms of Instr a command word can carry (spec/30_encoding.md R56, R57). -/

namespace Sys2Proof

/-- The count of units fits the 8-bit field `n` (30_encoding.md R56, R57: 0 .. 255). Whether it is in range for the operation (0 .. 51) is the operation's own check (42_comparator.md R141). -/
abbrev unitsFit (n : Nat) : Bool := decide (n < 256)

/-- An instruction that some command word encodes. -/
def WellFormed : Instr → Bool
  | .enc => true
  | .dec => true
  | .pack => true
  | .unpack => true
  | .tohex => true
  | .fromhex => true
  | .apply => true
  | .sub => true
  | .eq => true
  | .truncA n => unitsFit n
  | .truncP n => unitsFit n
  | .eqwA n => unitsFit n
  | .eqwP n => unitsFit n
  | .snapA n => unitsFit n
  | .snapP n => unitsFit n

end Sys2Proof
end

