-- ==== Sys2Proof/Decode.lean ====
section
/-! DEFINITION. The command word: its fields, the total decoder, the encoder and the assembler's spelling (spec/30_encoding.md R55 to R59, R70 to R72). -/

namespace Sys2Proof

/-- Why a command word is illegal (30_encoding.md R70). The block reports all three alike, as ILLEGAL_CMD (60_exceptions.md R164). -/
inductive Illegal where
  /-- `cmd[15:13]` is not 0. -/
  | reservedBits
  /-- `op` is 0x0, 0xD, 0xE or 0xF. -/
  | noOperation
  /-- `n` or `pk` is set in an operation that does not use it. -/
  | unusedField
deriving DecidableEq, Repr

/-- `rsv = cmd[15:13]` (30_encoding.md R56). -/
def cmdRsv (w : CmdWord) : BitVec 3 := w.extractLsb' 13 3

/-- `n = uZ(cmd[12:5])`, zero-extended, not scaled (30_encoding.md R56, R57). -/
def cmdUnits (w : CmdWord) : Nat := (w.extractLsb' 5 8).toNat

/-- `pk = cmd[4]`: 0 for Address operands, 1 for packed-word operands (30_encoding.md R56, R58). -/
def cmdPk (w : CmdWord) : BitVec 1 := w.extractLsb' 4 1

/-- `op = cmd[3:0]` (30_encoding.md R56). -/
def cmdOp (w : CmdWord) : BitVec 4 := w.extractLsb' 0 4

/-- An operation that uses neither `n` nor `pk`: both must be 0 (30_encoding.md R56, R70). -/
def decodePlain (w : CmdWord) (i : Instr) : Except Illegal Instr :=
  if cmdPk w = 0 ∧ cmdUnits w = 0 then .ok i else .error .unusedField

/-- An operation with a count of units; `pk` selects the operand form (30_encoding.md R58). -/
def decodeUnits (w : CmdWord) (address packed : Nat → Instr) : Except Illegal Instr :=
  if cmdPk w = 0 then .ok (address (cmdUnits w)) else .ok (packed (cmdUnits w))

/-- The operation map by `op` (30_encoding.md R59). -/
def decodeOp (w : CmdWord) : Except Illegal Instr :=
  match (cmdOp w).toNat with
  | 0x1 => decodePlain w .enc
  | 0x2 => decodePlain w .dec
  | 0x3 => decodePlain w .pack
  | 0x4 => decodePlain w .unpack
  | 0x5 => decodePlain w .tohex
  | 0x6 => decodePlain w .fromhex
  | 0x7 => decodePlain w .apply
  | 0x8 => decodePlain w .sub
  | 0x9 => decodePlain w .eq
  | 0xA => decodeUnits w .truncA .truncP
  | 0xB => decodeUnits w .eqwA .eqwP
  | 0xC => decodeUnits w .snapA .snapP
  | _   => .error .noOperation

/-- The total decoder: every 16-bit word is an instruction or is illegal for a named reason (30_encoding.md R59, R70). -/
def decode (w : CmdWord) : Except Illegal Instr :=
  if cmdRsv w = 0 then decodeOp w else .error .reservedBits

/-- A command word from its fields, `rsv` 0 (30_encoding.md R56). -/
def cmdOf (n : Nat) (pk : BitVec 1) (op : BitVec 4) : CmdWord :=
  (0 : BitVec 3) ++ BitVec.ofNat 8 n ++ pk ++ op

/-- The command word of an instruction (30_encoding.md R59). Of an ill-formed one the low 8 bits of the count are taken. -/
def encode : Instr → CmdWord
  | .enc      => cmdOf 0 0 0x1
  | .dec      => cmdOf 0 0 0x2
  | .pack     => cmdOf 0 0 0x3
  | .unpack   => cmdOf 0 0 0x4
  | .tohex    => cmdOf 0 0 0x5
  | .fromhex  => cmdOf 0 0 0x6
  | .apply    => cmdOf 0 0 0x7
  | .sub      => cmdOf 0 0 0x8
  | .eq       => cmdOf 0 0 0x9
  | .truncA n => cmdOf n 0 0xA
  | .truncP n => cmdOf n 1 0xA
  | .eqwA n   => cmdOf n 0 0xB
  | .eqwP n   => cmdOf n 1 0xB
  | .snapA n  => cmdOf n 0 0xC
  | .snapP n  => cmdOf n 1 0xC

/-- The instruction a numbered table word stands for: the low `nbits` bits of `w`, bits above them 0, as one 16-bit command word. -/
def decodeTableWord (nbits w : Nat) : Option Instr :=
  match decode (BitVec.ofNat 16 (w % 2 ^ nbits)) with
  | .ok i => some i
  | .error _ => none

/-- One row of the operation map, as 30_encoding.md R59 prints it: a command word `c` selects the row when `c AND mask = match`. -/
structure OpRow where
  mnemonic : String
  /-- The row's `match` column. -/
  pattern  : CmdWord
  mask     : CmdWord
deriving DecidableEq, Repr

/-- The row of the operation map an instruction belongs to, its `match` and `mask` copied from the table of 30_encoding.md R59. -/
def tableRow : Instr → OpRow
  | .enc      => ⟨"ENC", 0x0001, 0xFFFF⟩
  | .dec      => ⟨"DEC", 0x0002, 0xFFFF⟩
  | .pack     => ⟨"PACK", 0x0003, 0xFFFF⟩
  | .unpack   => ⟨"UNPACK", 0x0004, 0xFFFF⟩
  | .tohex    => ⟨"TOHEX", 0x0005, 0xFFFF⟩
  | .fromhex  => ⟨"FROMHEX", 0x0006, 0xFFFF⟩
  | .apply    => ⟨"APPLY", 0x0007, 0xFFFF⟩
  | .sub      => ⟨"SUB", 0x0008, 0xFFFF⟩
  | .eq       => ⟨"EQ", 0x0009, 0xFFFF⟩
  | .truncA _ => ⟨"TRUNC.A", 0x000A, 0xE01F⟩
  | .truncP _ => ⟨"TRUNC.P", 0x001A, 0xE01F⟩
  | .eqwA _   => ⟨"EQW.A", 0x000B, 0xE01F⟩
  | .eqwP _   => ⟨"EQW.P", 0x001B, 0xE01F⟩
  | .snapA _  => ⟨"SNAP.A", 0x000C, 0xE01F⟩
  | .snapP _  => ⟨"SNAP.P", 0x001C, 0xE01F⟩

/-- The count of units an instruction carries, if it carries one (30_encoding.md R57). -/
def unitsOf : Instr → Option Nat
  | .enc => none
  | .dec => none
  | .pack => none
  | .unpack => none
  | .tohex => none
  | .fromhex => none
  | .apply => none
  | .sub => none
  | .eq => none
  | .truncA n => some n
  | .truncP n => some n
  | .eqwA n => some n
  | .eqwP n => some n
  | .snapA n => some n
  | .snapP n => some n

/-- The head of a transaction line, `MNEMONIC[.A|.P] [n]` (30_encoding.md R72). -/
def asmHead (i : Instr) : String :=
  match unitsOf i with
  | some n => (tableRow i).mnemonic ++ " " ++ toString n
  | none => (tableRow i).mnemonic

end Sys2Proof
end

