-- ==== Sys2Proof/Machine/Transaction.lean ====
section
/-! DEFINITION. What surrounds an operation in a transaction: sampling the command, an illegal command, and reset (spec/10_state.md R26; spec/60_exceptions.md R164; spec/70_reset_and_hazards.md R185). -/

namespace Sys2Proof.Machine

/-- The command of the transaction on the ports (10_state.md R26, 30_encoding.md R70): decoding comes first (60_exceptions.md R171). -/
def fetchCommand (s : State) : Except Illegal Instr := decode s.inp.cmd

/-- An illegal command word: ILLEGAL_CMD, no operand port examined (30_encoding.md R70, 60_exceptions.md R164). -/
def raiseIllegal (s : State) : Outcome := raise .illegalCmd s

/-- While reset is asserted no transaction is accepted and no result is driven; a transaction under way is abandoned and delivers nothing, not even a status (70_reset_and_hazards.md R185). -/
def holdInReset (s : State) : Outcome := .next (s.deliver Results.absent)

/-- Put `w` on the command port, with reset released: what it takes for the next step to perform it. -/
def presentCommand (w : CmdWord) (s : State) : State :=
  { s with rst := false, inp := { s.inp with cmd := w } }

end Sys2Proof.Machine
end

