-- ==== Sys2Proof/Machine/Step.lean ====
section
/-! DEFINITION. One step of the machine: one whole transaction, from the operands on the ports to the results (spec/10_state.md R26; spec/70_reset_and_hazards.md R196). -/

namespace Sys2Proof.Machine

/-- One transaction, or one step spent in reset. -/
def step (s : State) : Host.Outcome State Fault Refusal :=
  if s.rst then holdInReset s
  else
    match fetchCommand s with
    | .ok i => exec i s
    | .error _ => raiseIllegal s

/-- `s` with the numbered table word on the command port and reset released. The host presents every command (10_state.md R24), so this stands for the host's doing (log entry 6). -/
def State.withFetchWord (s : State) (nbits w : Nat) : State :=
  presentCommand (BitVec.ofNat 16 (w % 2 ^ nbits)) s

end Sys2Proof.Machine
end

