-- ==== Sys2Proof/Machine/Run.lean ====
section
/-! DEFINITION. The host's side of the interface: what it puts on the ports, what it receives, and a run (spec/10_state.md R26, R27; spec/30_encoding.md R57; spec/60_exceptions.md R178; spec/70_reset_and_hazards.md R185, R188). -/

namespace Sys2Proof.Machine

/-- What a host can do to the block between steps. -/
inductive HostEvent where
  /-- Present a transaction and take its results (10_state.md R26). -/
  | transact (o : Operands)
  /-- Assert reset while transaction `o` is under way: it is abandoned (70_reset_and_hazards.md R185). -/
  | resetDuring (o : Operands)
  /-- Assert reset, the ports as they stand. -/
  | assertReset
  /-- Release reset. -/
  | releaseReset
deriving DecidableEq, Repr

/-- What the host received from one step: one set of results, or nothing while reset is asserted (70_reset_and_hazards.md R185, R188). -/
def received (s t : State) : List Results := if s.rst then [] else [t.out]

/-- One step as the host sees it: the state after it and what was received. -/
def takeStep (s : State) : State × List Results :=
  match step s with
  | .next t => (t, received s t)
  | .fault _ => (s, [])
  | .refused _ => (s, [])

/-- One action of the host and the step of the block that answers it, if any. -/
def hostAct (e : HostEvent) (s : State) : State × List Results :=
  match e with
  | .transact o => takeStep { s with inp := o }
  | .resetDuring o => takeStep { s with inp := o, rst := true }
  | .assertReset => takeStep { s with rst := true }
  | .releaseReset => ({ s with rst := false }, [])

/-- A run: the state it ends in and the list of results the host received, in the order of their transactions (70_reset_and_hazards.md R188, R196). -/
def hostRun : List HostEvent → State → State × List Results
  | [], s => (s, [])
  | e :: es, s =>
    let first := hostAct e s
    let rest := hostRun es first.1
    (rest.1, first.2 ++ rest.2)

/-- Several hosts taking turns on one block: each transaction carries the number of the host that issued it, and its result goes back to that host (60_exceptions.md R178). -/
def sharedRun : List (Nat × Operands) → State → List (Nat × List Results)
  | [], _ => []
  | (h, o) :: rest, s =>
    let first := hostAct (.transact o) s
    (h, first.2) :: sharedRun rest first.1

/-- The cells a host puts on port `t` for a text: the first 64 characters, zero cells behind a shorter one (10_state.md R27; the filling is never examined, 40_codec.md R101). -/
def textCells (text : List Byte) : Vector Byte 64 :=
  ⟨((text ++ List.replicate 64 0).take 64).toArray, by simp⟩

/-- The length a host puts on port `tlen`: a longer text is reported as 255 (10_state.md R27). -/
def textLength (text : List Byte) : BitVec 8 := BitVec.ofNat 8 (min text.length 255)

/-- A text on the ports `t` and `tlen`. -/
def presentText (text : List Byte) (o : Operands) : Operands :=
  { o with t := textCells text, tlen := textLength text }

/-- The count of units a host puts in a command word: a count above 255 is presented as 255 (30_encoding.md R57). -/
def presentUnits (count : Nat) : Nat := min count 255

end Sys2Proof.Machine
end

