-- ==== Sys2Proof/Safety.lean ====
section
/-! DEFINITION. The terms the statements use: which ports an operation reads and drives (spec/10_state.md R34), which results are lawful (spec/10_state.md R28; spec/60_exceptions.md R166), and the invariant of the machine. -/

namespace Sys2Proof.Machine

/-- The operand ports besides `cmd` (10_state.md R27). -/
inductive InPort where
  | x
  | a
  | b
  | d
  | p
  | q
  | t
  | tlen
deriving DecidableEq, Repr

/-- The result ports besides `status` (10_state.md R28). -/
inductive OutPort where
  | ra
  | y
  | rd
  | rp
  | rt
  | rtlen
  | rf
deriving DecidableEq, Repr

/-- The column 'reads' of 10_state.md R34. -/
def readPorts : Instr → List InPort
  | .enc => [.x]
  | .dec => [.a]
  | .pack => [.a]
  | .unpack => [.p]
  | .tohex => [.a]
  | .fromhex => [.t, .tlen]
  | .apply => [.a, .d]
  | .sub => [.a, .b]
  | .eq => [.a, .b]
  | .truncA _ => [.a]
  | .truncP _ => [.p]
  | .eqwA _ => [.a, .b]
  | .eqwP _ => [.p, .q]
  | .snapA _ => [.a]
  | .snapP _ => [.p]

/-- The column 'drives' of 10_state.md R34. -/
def drivenPorts : Instr → List OutPort
  | .enc => [.ra]
  | .dec => [.y]
  | .pack => [.rp]
  | .unpack => [.ra]
  | .tohex => [.rt, .rtlen]
  | .fromhex => [.ra]
  | .apply => [.ra]
  | .sub => [.rd]
  | .eq => [.rf]
  | .truncA _ => [.rp]
  | .truncP _ => [.rp]
  | .eqwA _ => [.rf]
  | .eqwP _ => [.rf]
  | .snapA _ => [.rt, .rtlen]
  | .snapP _ => [.rt, .rtlen]

/-- The column 'can raise' of 10_state.md R34. -/
def canRaise : Instr → List Status
  | .enc => []
  | .dec => []
  | .pack => []
  | .unpack => []
  | .tohex => []
  | .fromhex => [.parseError]
  | .apply => []
  | .sub => [.crossFrame]
  | .eq => []
  | .truncA _ => [.precisionRange]
  | .truncP _ => [.precisionRange]
  | .eqwA _ => [.precisionRange]
  | .eqwP _ => [.precisionRange]
  | .snapA _ => [.precisionRange]
  | .snapP _ => [.precisionRange]

/-- Two settings of the operand ports carry the same value on one port. -/
def agreeOn (o o' : Operands) : InPort → Prop
  | .x => o.x = o'.x
  | .a => o.a = o'.a
  | .b => o.b = o'.b
  | .d => o.d = o'.d
  | .p => o.p = o'.p
  | .q => o.q = o'.q
  | .t => o.t = o'.t
  | .tlen => o.tlen = o'.tlen

/-- The result port carries a value. -/
def isDriven (r : Results) : OutPort → Bool
  | .ra => r.ra.isSome
  | .y => r.y.isSome
  | .rd => r.rd.isSome
  | .rp => r.rp.isSome
  | .rt => r.rt.isSome
  | .rtlen => r.rtlen.isSome
  | .rf => r.rf.isSome

/-- The result ports that carry a value, in the order of 10_state.md R28. -/
def presentPorts (r : Results) : List OutPort :=
  [OutPort.ra, .y, .rd, .rp, .rt, .rtlen, .rf].filter (isDriven r)

/-- `rtlen` is the number of cells of `rt`, which fits its 8 bits (10_state.md R28). -/
def textMeasured (r : Results) : Bool :=
  match r.rt, r.rtlen with
  | some cells, some len => decide (len.toNat = cells.length)
  | none, none => true
  | _, _ => false

/-- What the result ports can carry together: nothing before a transaction, the code alone under an error, one operation's ports under OK (10_state.md R28, R37; 60_exceptions.md R166). -/
def lawful (r : Results) : Bool :=
  match r.status with
  | none => decide (r = Results.absent)
  | some .ok =>
    decide (presentPorts r ∈ [[OutPort.ra], [.y], [.rd], [.rp], [.rt, .rtlen], [.rf]]) && textMeasured r
  | some e => decide (r = Results.error e)

/-- The invariant of the machine: the block was built with a tag of at most 191 bytes, and its result ports are lawful. -/
def inv (s : State) : Bool := s.cfg.wf && lawful s.out

/-- The results of a transaction as a function of the parameters and the operand ports alone (10_state.md R20): what a block out of reset delivers when this transaction is its first. -/
def respond (c : Config) (o : Operands) : List Results :=
  (takeStep { State.reset with cfg := c, inp := o }).2

/-- The codes lie in the valid range (glossary of 00_scope.md). -/
def validCodes (a : Address) : Bool :=
  decide (-90000000 ≤ sZ a.lat ∧ sZ a.lat ≤ 90000000 ∧ -180000000 ≤ sZ a.lon ∧ sZ a.lon < 180000000)

/-- A cell is a hex digit: `0` to `9`, `a` to `f`, and `A` to `F` where the block takes them (40_codec.md R96, R101). -/
def isHexCell (c : Config) (cell : Byte) : Bool :=
  decide (0x30 ≤ cell.toNat ∧ cell.toNat ≤ 0x39) || decide (0x61 ≤ cell.toNat ∧ cell.toNat ≤ 0x66) ||
    (decide (0x41 ≤ cell.toNat ∧ cell.toNat ≤ 0x46) && decide (c.hexUpper = .accept))

/-- The character codes of the sixteen lower-case hex digits, `"0123456789abcdef"` (30_encoding.md R65). -/
def hexAlphabet : List Nat :=
  [0x30, 0x31, 0x32, 0x33, 0x34, 0x35, 0x36, 0x37, 0x38, 0x39, 0x61, 0x62, 0x63, 0x64, 0x65, 0x66]

/-- The lower-case spelling of a cell (40_codec.md R103). -/
def lowerCell (cell : Byte) : Byte :=
  if 0x41 ≤ cell.toNat ∧ cell.toNat ≤ 0x46 then cell + 0x20 else cell

end Sys2Proof.Machine
end

