-- ==== Sys2Proof/Certificates/Slice0/Obligations.lean ====
section
/-! DEFINITION. The statements for the provers. Each docstring names the rule of spec/ it formalises. An equation `exec i s = .next t` with `t` written out as `s` with new results says the frame too: the parameters, the reset input and every operand port are unchanged, and every result port not named is absent. -/

open Sys2Proof Sys2Proof.Machine

/-! Command words. -/

/-- 30_encoding.md R56, R59: the decoder reads back every field the encoder wrote. -/
def Obligations.DecodeOfEncodeIsTheInstruction : Prop :=
  ∀ i : Instr, WellFormed i = true → decode (encode i) = .ok i

/-- 30_encoding.md R59: each legal word has one meaning, and that meaning determines every bit of the word. -/
def Obligations.EncodeOfDecodeIsTheWord : Prop :=
  ∀ (w : CmdWord) (i : Instr), decode w = .ok i → WellFormed i = true ∧ encode i = w

/-- 30_encoding.md R59: a command word selects a row exactly when `c AND mask = match`, its count being `cmd[12:5]`; and no command word matches two rows. -/
def Obligations.WordSelectsItsRowByMaskAndMatch : Prop :=
  (∀ (w : CmdWord) (i : Instr), decode w = .ok i ↔
    (w &&& (tableRow i).mask = (tableRow i).pattern ∧
      (unitsOf i = none ∨ unitsOf i = some (w.toNat / 32 % 256)))) ∧
  (∀ (w : CmdWord) (i j : Instr), w &&& (tableRow i).mask = (tableRow i).pattern →
    w &&& (tableRow j).mask = (tableRow j).pattern → tableRow i = tableRow j)

/-- 30_encoding.md R70: which words are illegal, what the block answers to one, and that a count from 52 to 255 is legal and raises PRECISION_RANGE. -/
def Obligations.IllegalWordsAreTheListedOnes : Prop :=
  (∀ w : CmdWord, (∃ e, decode w = .error e) ↔
    (w.toNat / 8192 ≠ 0 ∨ w.toNat % 16 = 0 ∨ 0xD ≤ w.toNat % 16 ∨
      (1 ≤ w.toNat % 16 ∧ w.toNat % 16 ≤ 9 ∧ (w.toNat / 16 % 2 ≠ 0 ∨ w.toNat / 32 % 256 ≠ 0)))) ∧
  (∀ (s : State) (e : Illegal), s.rst = false → decode s.inp.cmd = .error e →
    step s = .next { s with out := { Results.absent with status := some .illegalCmd } }) ∧
  (∀ s : State, s.rst = false → s.inp.cmd.toNat / 8192 = 0 →
    0xA ≤ s.inp.cmd.toNat % 16 → s.inp.cmd.toNat % 16 ≤ 0xC → 52 ≤ s.inp.cmd.toNat / 32 % 256 →
    (∃ i, decode s.inp.cmd = .ok i) ∧
      step s = .next { s with out := { Results.absent with status := some .precisionRange } })

/-- 30_encoding.md R59: words of each family written out bit by bit from the table decode to the operation they stand for. -/
def Obligations.WrittenOutWordsDecode : Prop :=
  decode 0b000_00000000_0_0001 = .ok .enc ∧
  decode 0b000_00000000_0_0110 = .ok .fromhex ∧
  decode 0b000_00000000_0_0111 = .ok .apply ∧
  decode 0b000_00000000_0_1000 = .ok .sub ∧
  decode 0b000_00000000_0_1001 = .ok .eq ∧
  decode 0b000_00001101_0_1010 = .ok (.truncA 13) ∧
  decode 0b000_00110011_1_1011 = .ok (.eqwP 51) ∧
  decode 0b000_11111111_1_1100 = .ok (.snapP 255)

/-! The step. -/

/-- 10_state.md R26: with reset released, a step performs the operation the command word selects, on the ports as they stand; nothing is added around it. -/
def Obligations.StepPerformsTheCommandOnThePorts : Prop :=
  ∀ (s : State) (i : Instr), s.rst = false → decode s.inp.cmd = .ok i → step s = exec i s

/-- 70_reset_and_hazards.md R185: while reset is asserted no result is driven, not even a status, whatever transaction stands on the ports. -/
def Obligations.ResetAssertedDrivesNothing : Prop :=
  ∀ s : State, s.rst = true → step s = .next { s with out := Results.absent }

/-- 10_state.md R37: out of reset every result port is absent; and 00_scope.md R10: the parameters have their defaults. That reset is released there is the model's reading (log entry 5). -/
def Obligations.ResetStateDrivesNothing : Prop :=
  State.reset.out = Results.absent ∧ State.reset.rst = false ∧
  State.reset.cfg.signConv = .bias ∧ State.reset.cfg.radiusHigh = .saturate ∧
  State.reset.cfg.hexUpper = .accept ∧ statusPort State.reset = none

/-- 70_reset_and_hazards.md R197, 60_exceptions.md R172: no operation hangs, traps or fails to deliver; every transaction outside reset ends with a status. The spec marks R197 as derived from its other rules. -/
def Obligations.EveryTransactionCompletes : Prop :=
  (∀ (i : Instr) (s : State), ∃ t, exec i s = .next t ∧ t.out.status ≠ none) ∧
  (∀ s : State, ∃ t, step s = .next t ∧ (s.rst = false → t.out.status ≠ none))

/-- 10_state.md R20: the results of a transaction are a function of its command word, its operand ports and the parameters, and of nothing else; no value moves from a result port to an operand port inside the block. -/
def Obligations.ResultsAreAFunctionOfTheTransaction : Prop :=
  (∀ s1 s2 t1 t2 : State, s1.cfg = s2.cfg → s1.rst = false → s2.rst = false → s1.inp = s2.inp →
    step s1 = .next t1 → step s2 = .next t2 → t1.out = t2.out) ∧
  (∀ s t : State, step s = .next t → t.inp = s.inp)

/-- 10_state.md R22, R23: no operation, no illegal word and no reset changes a parameter or an input; and each of the fifteen operations changes the result ports alone. -/
def Obligations.OnlyTheResultPortsChange : Prop :=
  (∀ s t : State, step s = .next t → t.cfg = s.cfg ∧ t.rst = s.rst ∧ t.inp = s.inp) ∧
  (∀ (i : Instr) (s t : State), exec i s = .next t → t.cfg = s.cfg ∧ t.rst = s.rst ∧ t.inp = s.inp)

/-- 20_memory.md R43: presenting the same transaction again gives the same results. -/
def Obligations.StepIsIdempotent : Prop :=
  ∀ s t : State, step s = .next t → step t = .next t

/-- 10_state.md R28, R37, 60_exceptions.md R166: every step keeps the invariant: the result ports hold what one operation drives, or an error code alone, or nothing, and `rtlen` measures `rt`. -/
def Obligations.EveryStepKeepsTheInvariant : Prop :=
  ∀ s t : State, inv s = true → step s = .next t → inv t = true

/-- 10_state.md R28, R37: the block out of reset meets the invariant, whatever its tag. -/
def Obligations.ResetMeetsTheInvariant : Prop := inv State.reset = true

/-! Outcomes. -/

/-- 60_exceptions.md R161, R162, R163, R164, R168, R171: which code stands on the `status` port after a transaction, for each of the five codes; no other code is ever produced; and under an error no other port is driven. -/
def Obligations.StatusSaysWhichErrorHappened : Prop :=
  ∀ s t : State, s.rst = false → step s = .next t →
    (statusPort t = some 0 ↔ ∃ i, decode s.inp.cmd = .ok i ∧ presentPorts t.out = drivenPorts i) ∧
    (statusPort t = some 1 ↔ (decode s.inp.cmd = .ok .fromhex ∧
      (s.inp.tlen.toNat ≠ 64 ∨ ∃ cell ∈ s.inp.t.toList, hexVal s.cfg cell = none))) ∧
    (statusPort t = some 2 ↔ ∃ i n, decode s.inp.cmd = .ok i ∧ unitsOf i = some n ∧ 52 ≤ n) ∧
    (statusPort t = some 3 ↔ (decode s.inp.cmd = .ok .sub ∧ s.inp.a.frame ≠ s.inp.b.frame)) ∧
    (statusPort t = some 4 ↔ ∃ e, decode s.inp.cmd = .error e) ∧
    (∃ c, statusPort t = some c ∧ c.toNat ≤ 4 ∧ (c ≠ 0 → presentPorts t.out = []))

/-- 60_exceptions.md R166, R165: when `status` is not OK every other result port is absent; the code is all an error records. -/
def Obligations.ErrorsLeaveOnlyTheStatus : Prop :=
  ∀ (s t : State) (e : Status), step s = .next t → t.out.status = some e → e ≠ .ok →
    t.out = { Results.absent with status := some e }

/-- 10_state.md R34, R26: each operation reads, drives and can raise what its row of the table lists; ports it does not read are ignored, whatever they carry; a word that selects no operation raises ILLEGAL_CMD. -/
def Obligations.EachOperationUsesThePortsOfItsRow : Prop :=
  (∀ (i : Instr) (s1 s2 t1 t2 : State), s1.cfg = s2.cfg → (∀ port ∈ readPorts i, agreeOn s1.inp s2.inp port) →
    exec i s1 = .next t1 → exec i s2 = .next t2 → t1.out = t2.out) ∧
  (∀ (i : Instr) (s t : State), exec i s = .next t → t.out.status = some .ok →
    presentPorts t.out = drivenPorts i) ∧
  (∀ (i : Instr) (s t : State) (e : Status), exec i s = .next t → t.out.status = some e →
    e = .ok ∨ e ∈ canRaise i) ∧
  (∀ (s : State) (e : Illegal), s.rst = false → decode s.inp.cmd = .error e →
    step s = .next { s with out := { Results.absent with status := some .illegalCmd } })

/-! The Coordinate Codec. -/

/-- 40_codec.md R81, R82: ENC copies the four raw values bit for bit, with no clamp and no check. -/
def Obligations.EncCopiesTheRawValues : Prop :=
  decode 0x0001 = .ok .enc ∧
  ∀ s : State, exec .enc s = .next { s with out := { Results.absent with
    status := some .ok
    ra := some ⟨s.inp.x.frameId, s.inp.x.radius, s.inp.x.latMicro, s.inp.x.lonMicro⟩ } }

/-- 40_codec.md R84: DEC gives the four field values of the Address. -/
def Obligations.DecGivesTheRawValues : Prop :=
  decode 0x0002 = .ok .dec ∧
  ∀ s : State, exec .dec s = .next { s with out := { Results.absent with
    status := some .ok
    y := some ⟨s.inp.a.frame, s.inp.a.radius, s.inp.a.lat, s.inp.a.lon⟩ } }

/-- 40_codec.md R85: the round trip of ENC and DEC, carried by a host, for all values in both directions. The spec marks R85 as derived from its other rules. -/
def Obligations.EncAndDecRoundTrip : Prop :=
  (∀ s1 s2 t1 : State, exec .enc s1 = .next t1 → t1.out.ra = some s2.inp.a →
    ∃ t2, exec .dec s2 = .next t2 ∧ t2.out.y = some s1.inp.x) ∧
  (∀ s1 s2 t1 : State, exec .dec s1 = .next t1 → t1.out.y = some s2.inp.x →
    ∃ t2, exec .enc s2 = .next t2 ∧ t2.out.ra = some s1.inp.a)

/-- 30_encoding.md R60, 40_codec.md R87: the four fields of the packed word, under either sign convention. -/
def Obligations.PackLaysOutTheFields : Prop :=
  decode 0x0003 = .ok .pack ∧
  ∀ s : State, ∃ w : Packed,
    exec .pack s = .next { s with out := { Results.absent with status := some .ok, rp := some w } } ∧
    uZ (w.extractLsb 255 192) = uZ s.inp.a.frame ∧
    uZ (w.extractLsb 191 128) = uZ s.inp.a.radius ∧
    (s.cfg.signConv = .bias →
      uZ (w.extractLsb 127 64) = (sZ s.inp.a.lat + 90000000) % 2 ^ 64 ∧
      uZ (w.extractLsb 63 0) = (sZ s.inp.a.lon + 180000000) % 2 ^ 64) ∧
    (s.cfg.signConv = .bitcast →
      uZ (w.extractLsb 127 64) = sZ s.inp.a.lat % 2 ^ 64 ∧
      uZ (w.extractLsb 63 0) = sZ s.inp.a.lon % 2 ^ 64)

/-- 30_encoding.md R61: both field maps are bijections; under BIAS no reduction happens for a code at or above the lower bound of its range, and a lower latitude code gives `2^64 + lat_code + 90_000_000`. -/
def Obligations.BiasWrapsOnlyBelowTheRange : Prop :=
  (∀ c : Config, Function.Bijective (latField c) ∧ Function.Bijective (lonField c)) ∧
  (∀ (c : Config) (code : Field), c.signConv = .bias → -90000000 ≤ sZ code →
    uZ (latField c code) = sZ code + 90000000) ∧
  (∀ (c : Config) (code : Field), c.signConv = .bias → sZ code < -90000000 →
    uZ (latField c code) = 2 ^ 64 + sZ code + 90000000) ∧
  (∀ (c : Config) (code : Field), c.signConv = .bias → -180000000 ≤ sZ code →
    uZ (lonField c code) = sZ code + 180000000) ∧
  (∀ (c : Config) (code : Field), c.signConv = .bias → sZ code < -180000000 →
    uZ (lonField c code) = 2 ^ 64 + sZ code + 180000000)

/-- 30_encoding.md R62, 40_codec.md R90: every packed word unpacks, and to which Address. -/
def Obligations.UnpackReadsTheFields : Prop :=
  decode 0x0004 = .ok .unpack ∧
  ∀ s : State, ∃ a : Address,
    exec .unpack s = .next { s with out := { Results.absent with status := some .ok, ra := some a } } ∧
    uZ a.frame = uZ (s.inp.p.extractLsb 255 192) ∧
    uZ a.radius = uZ (s.inp.p.extractLsb 191 128) ∧
    (s.cfg.signConv = .bias →
      uZ a.lat = (uZ (s.inp.p.extractLsb 127 64) - 90000000) % 2 ^ 64 ∧
      uZ a.lon = (uZ (s.inp.p.extractLsb 63 0) - 180000000) % 2 ^ 64) ∧
    (s.cfg.signConv = .bitcast →
      uZ a.lat = uZ (s.inp.p.extractLsb 127 64) ∧
      uZ a.lon = uZ (s.inp.p.extractLsb 63 0))

/-- 40_codec.md R91: PACK and UNPACK undo each other under one sign convention, in both directions; a word packed under BIAS and unpacked under BITCAST comes out with codes too large by the two bias constants. The spec marks R91 as derived from its other rules. -/
def Obligations.PackAndUnpackRoundTrip : Prop :=
  (∀ s1 s2 t1 : State, s1.cfg.signConv = s2.cfg.signConv → exec .pack s1 = .next t1 →
    t1.out.rp = some s2.inp.p →
    ∃ t2, exec .unpack s2 = .next t2 ∧ t2.out.ra = some s1.inp.a) ∧
  (∀ s1 s2 t1 : State, s1.cfg.signConv = s2.cfg.signConv → exec .unpack s1 = .next t1 →
    t1.out.ra = some s2.inp.a →
    ∃ t2, exec .pack s2 = .next t2 ∧ t2.out.rp = some s1.inp.p) ∧
  (∀ s1 s2 t1 : State, s1.cfg.signConv = .bias → s2.cfg.signConv = .bitcast →
    exec .pack s1 = .next t1 → t1.out.rp = some s2.inp.p →
    ∃ t2, exec .unpack s2 = .next t2 ∧
      t2.out.ra = some ⟨s1.inp.a.frame, s1.inp.a.radius,
        bitsN 64 (sZ s1.inp.a.lat + 90000000), bitsN 64 (sZ s1.inp.a.lon + 180000000)⟩)

/-- 40_codec.md R94, 30_encoding.md R65: TOHEX writes exactly 64 cells, cell `i` the lower-case digit of bits `255 - 4i : 252 - 4i` of the packed word. The character codes are ASCII, which 40_codec.md R96 takes from general knowledge (log entry 16). -/
def Obligations.ToHexWritesTheDigits : Prop :=
  ∀ s : State, ∃ cells : List Byte,
    exec .tohex s = .next { s with out := { Results.absent with
      status := some .ok, rt := some cells, rtlen := some 64 } } ∧
    cells.length = 64 ∧
    ∀ i, i < 64 → (cells[i]?).map (fun cell => cell.toNat) =
      hexAlphabet[(pack s.cfg s.inp.a).toNat / 2 ^ (252 - 4 * i) % 16]?

/-- 20_memory.md R45, R46: byte `k` of the packed word written out most significant byte first is the byte whose two digits are cells `2k` and `2k + 1` of TOHEX. The character codes are ASCII, which 40_codec.md R96 takes from general knowledge (log entry 16). -/
def Obligations.ToHexSpellsTheBytesInOrder : Prop :=
  ∀ (s t : State) (cells : List Byte), exec .tohex s = .next t → t.out.rt = some cells →
    (packedBytes (pack s.cfg s.inp.a)).length = 32 ∧
    ∀ (k : Nat) (b : Byte), (packedBytes (pack s.cfg s.inp.a))[k]? = some b →
      (cells[2 * k]?).map (fun cell => cell.toNat) = hexAlphabet[b.toNat / 16]? ∧
      (cells[2 * k + 1]?).map (fun cell => cell.toNat) = hexAlphabet[b.toNat % 16]?

/-- 40_codec.md R100, R101, 60_exceptions.md R162: FROMHEX accepts exactly the texts of 64 hex digits and delivers the Address of the word they spell, with no range check; every other text is a parse error. The character codes are ASCII, which 40_codec.md R96 takes from general knowledge (log entry 16). -/
def Obligations.FromHexAcceptsExactlyTheHexTexts : Prop :=
  (∀ s : State, s.inp.tlen.toNat = 64 → (∀ cell ∈ s.inp.t.toList, isHexCell s.cfg cell = true) →
    ∃ w : Packed,
      exec .fromhex s = .next { s with out := { Results.absent with
        status := some .ok, ra := some (unpack s.cfg w) } } ∧
      ∀ i, i < 64 → ∃ cell, s.inp.t.toList[i]? = some cell ∧
        hexAlphabet[w.toNat / 2 ^ (252 - 4 * i) % 16]? = some (lowerCell cell).toNat) ∧
  (∀ s : State, (s.inp.tlen.toNat ≠ 64 ∨ ∃ cell ∈ s.inp.t.toList, isHexCell s.cfg cell = false) →
    exec .fromhex s = .next { s with out := { Results.absent with status := some .parseError } })

/-- 40_codec.md R103: FROMHEX of the text of TOHEX returns the Address, for every Address; TOHEX of the Address of a text gives the text back in lower case, so a lower-case text itself. The spec marks R103 as derived from its other rules. What counts as an upper-case digit, and its lower-case spelling, rest on the ASCII codes, which 40_codec.md R96 takes from general knowledge (log entry 16). -/
def Obligations.HexTextRoundTrips : Prop :=
  (∀ s1 s2 t1 : State, s1.cfg.signConv = s2.cfg.signConv → exec .tohex s1 = .next t1 →
    t1.out.rt = some s2.inp.t.toList → t1.out.rtlen = some s2.inp.tlen →
    ∃ t2, exec .fromhex s2 = .next t2 ∧ t2.out.status = some .ok ∧ t2.out.ra = some s1.inp.a) ∧
  (∀ s1 s2 t1 : State, s1.cfg.signConv = s2.cfg.signConv → exec .fromhex s1 = .next t1 →
    t1.out.ra = some s2.inp.a →
    ∃ t2, exec .tohex s2 = .next t2 ∧ t2.out.rt = some (s1.inp.t.toList.map lowerCell) ∧
      ((∀ cell ∈ s1.inp.t.toList, cell.toNat < 0x41 ∨ 0x46 < cell.toNat) →
        t2.out.rt = some s1.inp.t.toList))

/-- 10_state.md R27, 40_codec.md R100: a host that presents a text of any length gets OK exactly when it has 64 characters, all hex digits. The character codes are ASCII, which 40_codec.md R96 takes from general knowledge (log entry 16). How the cells behind a short text are filled is the model's choice (log entry 14). -/
def Obligations.FromHexOfAPresentedText : Prop :=
  ∀ (s : State) (text : List Byte), ∃ t,
    exec .fromhex { s with inp := presentText text s.inp } = .next t ∧
    (t.out.status = some .ok ↔ (text.length = 64 ∧ ∀ cell ∈ text, isHexCell s.cfg cell = true)) ∧
    (t.out.status = some .ok ∨ t.out.status = some .parseError)

/-- 30_encoding.md R68: the order of packed words is the lexicographic order of the texts TOHEX writes; under BIAS, for codes not below their ranges, it is the lexicographic order of the four field values; under BITCAST a negative code sorts after every non-negative one. The spec marks R68 as derived from its other rules. -/
def Obligations.PackedOrderIsTextOrder : Prop :=
  (∀ (s1 s2 t1 t2 : State) (c1 c2 : List Byte), s1.cfg = s2.cfg →
    exec .tohex s1 = .next t1 → exec .tohex s2 = .next t2 →
    t1.out.rt = some c1 → t2.out.rt = some c2 →
    (uZ (pack s1.cfg s1.inp.a) < uZ (pack s2.cfg s2.inp.a) ↔
      List.Lex (fun x y : Byte => x.toNat < y.toNat) c1 c2)) ∧
  (∀ (c : Config) (a b : Address), c.signConv = .bias →
    -90000000 ≤ sZ a.lat → -180000000 ≤ sZ a.lon → -90000000 ≤ sZ b.lat → -180000000 ≤ sZ b.lon →
    (uZ (pack c a) < uZ (pack c b) ↔
      List.Lex (fun x y : Int => x < y) [uZ a.frame, uZ a.radius, sZ a.lat, sZ a.lon]
        [uZ b.frame, uZ b.radius, sZ b.lat, sZ b.lon])) ∧
  (∀ (c : Config) (x y : Field), c.signConv = .bitcast → sZ x < 0 → 0 ≤ sZ y →
    uZ (latField c y) < uZ (latField c x) ∧ uZ (lonField c y) < uZ (lonField c x))

/-! The Delta Arithmetic. -/

/-- 41_delta.md R112: APPLY delivers what the five steps of the document give, with the loop of step 3 run to its end, over the integers; the loop ends for every pair of sums; and no operand makes APPLY fail. -/
def Obligations.ApplyFollowsTheFiveSteps : Prop :=
  decode 0x0007 = .ok .apply ∧
  (∀ x z : Int, ∃ turns, -90000000 ≤ (poleLoop turns (x, z)).1 ∧ (poleLoop turns (x, z)).1 ≤ 90000000) ∧
  ∀ (s : State) (turns : Nat),
    let sum := uZ s.inp.a.radius + sZ s.inp.d.dr
    let radius : Int :=
      if sum < 0 then 0
      else if 2 ^ 64 - 1 < sum then
        (if s.cfg.radiusHigh = .saturate then 2 ^ 64 - 1 else sum % 2 ^ 64)
      else sum
    let lat := sZ s.inp.a.lat + sZ s.inp.d.dlat
    let lon := sZ s.inp.a.lon + sZ s.inp.d.dlon
    let ended := poleLoop turns (lat, lon);
    -90000000 ≤ ended.1 → ended.1 ≤ 90000000 →
    exec .apply s = .next { s with out := { Results.absent with
      status := some .ok
      ra := some
        ⟨s.inp.a.frame, bitsN 64 radius, bitsN 64 (min (max ended.1 (-90000000)) 90000000),
          bitsN 64 ((ended.2 + 180000000) % 360000000 - 180000000)⟩ } }

/-- 41_delta.md R115, R117: the pole loop stops after exactly `ceil_div(|x| - 90 000 000, 180 000 000)` turns, at a latitude the clamp of step 4 does not change, with half a turn of longitude added for each. The spec marks R117 as derived from its other rules. -/
def Obligations.PoleLoopEndsInsideTheRange : Prop :=
  ∀ (x z : Int),
    let k := (x.natAbs - 90000000 + 179999999) / 180000000;
    (∀ more, poleLoop (k + more) (x, z) = poleLoop k (x, z)) ∧
    (∀ j, j < k → (90000000 : Int) < |(poleLoop j (x, z)).1|) ∧
    |(poleLoop k (x, z)).1| ≤ 90000000 ∧
    clampLat (poleLoop k (x, z)).1 = (poleLoop k (x, z)).1 ∧
    (poleLoop k (x, z)).2 = z + 180000000 * (k : Int)

/-- 41_delta.md R116: the closed form equals steps 3 to 5 with the loop run to its end, for every pair of sums. The spec marks R116 as derived from its other rules. -/
def Obligations.ClosedFormEqualsTheLoop : Prop :=
  ∀ (x z : Int) (turns : Nat),
    -90000000 ≤ (poleLoop turns (x, z)).1 → (poleLoop turns (x, z)).1 ≤ 90000000 →
    normalise x z = normaliseByLoop turns x z

/-- 41_delta.md R118, 10_state.md R33: what APPLY guarantees of its result for every operand; the zero Delta returns an Address in the valid range unchanged. The spec marks R118 as derived from its other rules. -/
def Obligations.ApplyDeliversANormalisedAddress : Prop :=
  (∀ s : State, ∃ a : Address,
    exec .apply s = .next { s with out := { Results.absent with status := some .ok, ra := some a } } ∧
    a.frame = s.inp.a.frame ∧ -90000000 ≤ sZ a.lat ∧ sZ a.lat ≤ 90000000 ∧
    -180000000 ≤ sZ a.lon ∧ sZ a.lon < 180000000 ∧ 0 ≤ uZ a.radius ∧ uZ a.radius ≤ 2 ^ 64 - 1) ∧
  (∀ s : State, s.inp.d = ⟨0, 0, 0⟩ → validCodes s.inp.a = true →
    exec .apply s = .next { s with out := { Results.absent with status := some .ok, ra := some s.inp.a } })

/-- 41_delta.md R113: the radius: 0 below, exact in range, saturated or cut to 64 bits above. -/
def Obligations.ApplyRadiusFloorsAndSaturates : Prop :=
  ∀ s : State, ∃ a : Address,
    exec .apply s = .next { s with out := { Results.absent with status := some .ok, ra := some a } } ∧
    (uZ s.inp.a.radius + sZ s.inp.d.dr < 0 → uZ a.radius = 0) ∧
    (0 ≤ uZ s.inp.a.radius + sZ s.inp.d.dr → uZ s.inp.a.radius + sZ s.inp.d.dr ≤ 2 ^ 64 - 1 →
      uZ a.radius = uZ s.inp.a.radius + sZ s.inp.d.dr) ∧
    (2 ^ 64 - 1 < uZ s.inp.a.radius + sZ s.inp.d.dr → s.cfg.radiusHigh = .saturate →
      uZ a.radius = 2 ^ 64 - 1) ∧
    (2 ^ 64 - 1 < uZ s.inp.a.radius + sZ s.inp.d.dr → s.cfg.radiusHigh = .wrap →
      uZ a.radius = (uZ s.inp.a.radius + sZ s.inp.d.dr) % 2 ^ 64)

/-- 41_delta.md R116: the latitude of APPLY is the triangle wave of period 360 000 000 and amplitude 90 000 000 through the origin, evaluated at the exact sum. The spec marks R116 as derived from its other rules. -/
def Obligations.ApplyLatitudeIsATriangleWave : Prop :=
  ∀ s : State, ∃ a : Address,
    exec .apply s = .next { s with out := { Results.absent with status := some .ok, ra := some a } } ∧
    sZ a.lat =
      90000000 - |(sZ s.inp.a.lat + sZ s.inp.d.dlat + 90000000) % 360000000 - 180000000|

/-- 41_delta.md R119, R115: the longitude of APPLY is the exact sum, plus half a turn for each pole crossing, reduced by whole turns into the interval closed below and open above. -/
def Obligations.ApplyLongitudeTurnsAtEachPole : Prop :=
  ∀ s : State, ∃ a : Address,
    exec .apply s = .next { s with out := { Results.absent with status := some .ok, ra := some a } } ∧
    -180000000 ≤ sZ a.lon ∧ sZ a.lon < 180000000 ∧
    (sZ a.lon - (sZ s.inp.a.lon + sZ s.inp.d.dlon +
      180000000 * (((sZ s.inp.a.lat + sZ s.inp.d.dlat).natAbs - 90000000 + 179999999) / 180000000 : Nat)))
        % 360000000 = 0

/-- 41_delta.md R120, R121: a single step over a pole reflects the latitude and turns the longitude by half a turn; it is not a clamp. The spec marks R121 as derived from its other rules. -/
def Obligations.OnePoleCrossingReflects : Prop :=
  (∀ s : State, 90000000 < sZ s.inp.a.lat + sZ s.inp.d.dlat → sZ s.inp.a.lat + sZ s.inp.d.dlat ≤ 270000000 →
    ∃ a : Address,
      exec .apply s = .next { s with out := { Results.absent with status := some .ok, ra := some a } } ∧
      sZ a.lat = 180000000 - (sZ s.inp.a.lat + sZ s.inp.d.dlat) ∧
      (sZ a.lon - (sZ s.inp.a.lon + sZ s.inp.d.dlon)) % 360000000 = 180000000) ∧
  (∀ s : State, sZ s.inp.a.lat + sZ s.inp.d.dlat < -90000000 → -270000000 ≤ sZ s.inp.a.lat + sZ s.inp.d.dlat →
    ∃ a : Address,
      exec .apply s = .next { s with out := { Results.absent with status := some .ok, ra := some a } } ∧
      sZ a.lat = -180000000 - (sZ s.inp.a.lat + sZ s.inp.d.dlat) ∧
      (sZ a.lon - (sZ s.inp.a.lon + sZ s.inp.d.dlon)) % 360000000 = 180000000)

/-- 41_delta.md R122: two applications equal one of the summed Delta when neither reflects at a pole and the radius neither clamps nor saturates, whatever the longitude does. The spec marks R122 as derived from its other rules. -/
def Obligations.ApplyAddsWithoutReflection : Prop :=
  ∀ (s1 s2 s3 t1 t2 : State),
    s2.cfg = s1.cfg → s3.cfg = s1.cfg → s3.inp.a = s1.inp.a →
    sZ s3.inp.d.dr = sZ s1.inp.d.dr + sZ s2.inp.d.dr →
    sZ s3.inp.d.dlat = sZ s1.inp.d.dlat + sZ s2.inp.d.dlat →
    sZ s3.inp.d.dlon = sZ s1.inp.d.dlon + sZ s2.inp.d.dlon →
    |sZ s1.inp.a.lat + sZ s1.inp.d.dlat| ≤ 90000000 →
    |sZ s1.inp.a.lat + sZ s1.inp.d.dlat + sZ s2.inp.d.dlat| ≤ 90000000 →
    0 ≤ uZ s1.inp.a.radius + sZ s1.inp.d.dr → uZ s1.inp.a.radius + sZ s1.inp.d.dr ≤ 2 ^ 64 - 1 →
    0 ≤ uZ s1.inp.a.radius + sZ s1.inp.d.dr + sZ s2.inp.d.dr →
    uZ s1.inp.a.radius + sZ s1.inp.d.dr + sZ s2.inp.d.dr ≤ 2 ^ 64 - 1 →
    exec .apply s1 = .next t1 → t1.out.ra = some s2.inp.a → exec .apply s2 = .next t2 →
    ∃ t3, exec .apply s3 = .next t3 ∧ t3.out = t2.out

/-- 41_delta.md R114: while the three Delta fields are at most 2^125 in size, every intermediate of APPLY's steps, the running values of the loop among them, lies strictly inside the 128-bit signed range. -/
def Obligations.SmallDeltasNeedOnly128Bits : Prop :=
  ∀ (a : Address) (d : Delta), |sZ d.dr| ≤ 2 ^ 125 → |sZ d.dlat| ≤ 2 ^ 125 → |sZ d.dlon| ≤ 2 ^ 125 →
    |uZ a.radius + sZ d.dr| < 2 ^ 127 ∧
    ∀ turns,
      |(poleLoop turns (sZ a.lat + sZ d.dlat, sZ a.lon + sZ d.dlon)).1| < 2 ^ 127 ∧
      |(poleLoop turns (sZ a.lat + sZ d.dlat, sZ a.lon + sZ d.dlon)).2| + 180000000 < 2 ^ 127

/-- 41_delta.md R125, R126, 60_exceptions.md R163: SUB is the exact field-wise difference of two Addresses of one frame, and CROSS_FRAME without a Delta for two frames. -/
def Obligations.SubIsTheFieldwiseDifference : Prop :=
  decode 0x0008 = .ok .sub ∧
  (∀ s : State, s.inp.a.frame = s.inp.b.frame → ∃ d : Delta,
    exec .sub s = .next { s with out := { Results.absent with status := some .ok, rd := some d } } ∧
    sZ d.dr = uZ s.inp.a.radius - uZ s.inp.b.radius ∧
    sZ d.dlat = sZ s.inp.a.lat - sZ s.inp.b.lat ∧
    sZ d.dlon = sZ s.inp.a.lon - sZ s.inp.b.lon) ∧
  (∀ s : State, s.inp.a.frame ≠ s.inp.b.frame →
    exec .sub s = .next { s with out := { Results.absent with status := some .crossFrame } })

/-- 41_delta.md R127: applying the difference `a - b` to `b` returns `a` exactly, for Addresses of one frame with `a` in the valid range. -/
def Obligations.ApplyUndoesSub : Prop :=
  ∀ s1 s2 t1 : State, s1.inp.a.frame = s1.inp.b.frame → validCodes s1.inp.a = true →
    exec .sub s1 = .next t1 → t1.out.rd = some s2.inp.d → s2.inp.a = s1.inp.b →
    ∃ t2, exec .apply s2 = .next t2 ∧ t2.out.ra = some s1.inp.a

/-! The Tolerance Comparator. -/

/-- 42_comparator.md R136, 10_state.md R35: EQ answers 1 exactly when all four fields are equal, which is when the packed words are equal. -/
def Obligations.EqIsExactEquality : Prop :=
  decode 0x0009 = .ok .eq ∧
  ∀ s : State, ∃ f : Bool,
    exec .eq s = .next { s with out := { Results.absent with status := some .ok, rf := some f } } ∧
    (f = true ↔ (s.inp.a.frame = s.inp.b.frame ∧ s.inp.a.radius = s.inp.b.radius ∧
      s.inp.a.lat = s.inp.b.lat ∧ s.inp.a.lon = s.inp.b.lon)) ∧
    (∀ c : Config, f = true ↔ pack c s.inp.a = pack c s.inp.b)

/-- 42_comparator.md R140, R143, R144: TRUNC keeps bits 255 to `256 - 5n` and clears the rest, in both operand forms. -/
def Obligations.TruncKeepsTheTopBits : Prop :=
  ∀ (s : State) (n : Nat), n ≤ 51 →
    (∃ w : Packed,
      exec (.truncA n) s = .next { s with out := { Results.absent with status := some .ok, rp := some w } } ∧
      ∀ k, k < 256 → w.getLsbD k = (decide (256 - 5 * n ≤ k) && (pack s.cfg s.inp.a).getLsbD k)) ∧
    (∃ w : Packed,
      exec (.truncP n) s = .next { s with out := { Results.absent with status := some .ok, rp := some w } } ∧
      ∀ k, k < 256 → w.getLsbD k = (decide (256 - 5 * n ≤ k) && s.inp.p.getLsbD k))

/-- 42_comparator.md R141, 60_exceptions.md R168: in all six forms a count of 52 or more raises PRECISION_RANGE and delivers nothing, whatever the operands; a count of 0 to 51 does not. The spec marks R141 as derived from its other rules. -/
def Obligations.CountsAbove51AreOutOfRange : Prop :=
  ∀ (s : State) (n : Nat) (i : Instr),
    i ∈ [Instr.truncA n, .truncP n, .eqwA n, .eqwP n, .snapA n, .snapP n] →
    (52 ≤ n → exec i s = .next { s with out := { Results.absent with status := some .precisionRange } }) ∧
    (n ≤ 51 → ∃ t, exec i s = .next t ∧ t.out.status = some .ok)

/-- 30_encoding.md R57: a host that holds a count above 51 presents at most 255, and the outcome is the one R57 names: in all six forms PRECISION_RANGE and nothing else, on a command word that carries the presented count. The last clause says it is the outcome of the count itself; above 255 no command word carries that count, and what exec does with it is the model's choice (log entry 13), as is the name of what the host presents (log entry 14). -/
def Obligations.PresentedCountHasTheSameOutcome : Prop :=
  (∀ (s : State) (count : Nat) (i : Instr), 52 ≤ count →
    i ∈ [Instr.truncA (presentUnits count), .truncP (presentUnits count), .eqwA (presentUnits count),
      .eqwP (presentUnits count), .snapA (presentUnits count), .snapP (presentUnits count)] →
    decode (encode i) = .ok i ∧
    exec i s = .next { s with out := { Results.absent with status := some .precisionRange } }) ∧
  (∀ (s : State) (count : Nat),
    exec (.truncA (presentUnits count)) s = exec (.truncA count) s ∧
    exec (.truncP (presentUnits count)) s = exec (.truncP count) s ∧
    exec (.eqwA (presentUnits count)) s = exec (.eqwA count) s ∧
    exec (.eqwP (presentUnits count)) s = exec (.eqwP count) s ∧
    exec (.snapA (presentUnits count)) s = exec (.snapA count) s ∧
    exec (.snapP (presentUnits count)) s = exec (.snapP count) s)

/-- 42_comparator.md R144: truncating a truncated word keeps what the smaller count keeps. -/
def Obligations.TruncationsNest : Prop :=
  ∀ (s1 s2 t1 : State) (n1 n2 : Nat), n1 ≤ 51 → n2 ≤ 51 → exec (.truncP n2) s1 = .next t1 →
    t1.out.rp = some s2.inp.p →
    ∃ t2 t3, exec (.truncP n1) s2 = .next t2 ∧ exec (.truncP (min n1 n2)) s1 = .next t3 ∧
      t2.out = t3.out

/-- 42_comparator.md R147, R148: EQW answers 1 exactly when the two words agree in bits 255 to `256 - 5n`, in both operand forms; there is no frame check. -/
def Obligations.EqwComparesTheTopBits : Prop :=
  ∀ (s : State) (n : Nat), n ≤ 51 →
    (∃ f : Bool,
      exec (.eqwA n) s = .next { s with out := { Results.absent with status := some .ok, rf := some f } } ∧
      (f = true ↔ ∀ k, k < 256 → 256 - 5 * n ≤ k →
        (pack s.cfg s.inp.a).getLsbD k = (pack s.cfg s.inp.b).getLsbD k)) ∧
    (∃ f : Bool,
      exec (.eqwP n) s = .next { s with out := { Results.absent with status := some .ok, rf := some f } } ∧
      (f = true ↔ ∀ k, k < 256 → 256 - 5 * n ≤ k → s.inp.p.getLsbD k = s.inp.q.getLsbD k))

/-- 42_comparator.md R149: a match at a finer precision is a match at every coarser one. The spec marks R149 as derived from its other rules. -/
def Obligations.CoarserPrecisionMatchesMore : Prop :=
  ∀ (s : State) (n1 n2 : Nat), n1 < n2 → n2 ≤ 51 →
    (∀ t, exec (.eqwA n2) s = .next t → t.out.rf = some true →
      ∃ u, exec (.eqwA n1) s = .next u ∧ u.out.rf = some true) ∧
    (∀ t, exec (.eqwP n2) s = .next t → t.out.rf = some true →
      ∃ u, exec (.eqwP n1) s = .next u ∧ u.out.rf = some true)

/-- 30_encoding.md R58: the Address form of TRUNC, EQW and SNAP gives what the packed form gives on the words PACK delivers. -/
def Obligations.AddressFormPacksFirst : Prop :=
  ∀ (s sb s' ta tb : State) (n : Nat), s'.cfg = s.cfg → sb.cfg = s.cfg → sb.inp.a = s.inp.b →
    exec .pack s = .next ta → ta.out.rp = some s'.inp.p →
    exec .pack sb = .next tb → tb.out.rp = some s'.inp.q →
    (∃ t t', exec (.truncA n) s = .next t ∧ exec (.truncP n) s' = .next t' ∧ t.out = t'.out) ∧
    (∃ t t', exec (.eqwA n) s = .next t ∧ exec (.eqwP n) s' = .next t' ∧ t.out = t'.out) ∧
    (∃ t t', exec (.snapA n) s = .next t ∧ exec (.snapP n) s' = .next t' ∧ t.out = t'.out)

/-- 42_comparator.md R150: at the finest precision EQW ignores bit 0 of the packed word and nothing else. The spec marks R150 as derived from its other rules. -/
def Obligations.FinestPrecisionIgnoresOnlyBitZero : Prop :=
  ∀ s : State, ∃ t, exec (.eqwP 51) s = .next t ∧
    (t.out.rf = some true ↔ s.inp.p.toNat / 2 = s.inp.q.toNat / 2) ∧
    (t.out.rf = some true ∨ t.out.rf = some false)

/-- 42_comparator.md R142, 70_reset_and_hazards.md R194: up to 12 units EQW.A answers 1 exactly when the two frames agree in their top 5n bits, so only the frame is compared; up to 25 units exactly when frame and radius, read as one 128-bit number with the frame on top, agree in their top 5n bits, so nothing of latitude or longitude is. The spec marks R142 and R194 as derived from its other rules. -/
def Obligations.CoarseCountsSeeOnlyTheUpperFields : Prop :=
  ∀ (s : State) (n : Nat),
    (n ≤ 12 → ∃ f : Bool,
      exec (.eqwA n) s = .next { s with out := { Results.absent with status := some .ok, rf := some f } } ∧
      (f = true ↔ ∀ k, k < 64 → 64 - 5 * n ≤ k → s.inp.a.frame.getLsbD k = s.inp.b.frame.getLsbD k)) ∧
    (n ≤ 25 → ∃ f : Bool,
      exec (.eqwA n) s = .next { s with out := { Results.absent with status := some .ok, rf := some f } } ∧
      (f = true ↔ ∀ k, k < 128 → 128 - 5 * n ≤ k →
        (s.inp.a.frame ++ s.inp.a.radius).getLsbD k = (s.inp.b.frame ++ s.inp.b.radius).getLsbD k))

/-- 42_comparator.md R151: latitudes -1 and 0, all else equal, stay equal up to 36 units under BIAS and up to 25 units under BITCAST. The spec marks R151 as derived from its other rules. -/
def Obligations.SignConventionDecidesNearTheEquator : Prop :=
  ∀ (s : State) (n : Nat), n ≤ 51 → sZ s.inp.a.lat = -1 → sZ s.inp.b.lat = 0 →
    s.inp.a.frame = s.inp.b.frame → s.inp.a.radius = s.inp.b.radius → s.inp.a.lon = s.inp.b.lon →
    ∃ (t : State) (f : Bool), exec (.eqwA n) s = .next t ∧ t.out.rf = some f ∧
      (s.cfg.signConv = .bias → (f = true ↔ n ≤ 36)) ∧
      (s.cfg.signConv = .bitcast → (f = true ↔ n ≤ 25))

/-- 42_comparator.md R153, R154: the SNAP token is the tag and then the 64 lower-case digits of the truncated word; its length is that of the tag plus 64, in both operand forms. The character codes are ASCII, which 40_codec.md R96 takes from general knowledge (log entry 16). The tag itself is open (log entry 3). -/
def Obligations.SnapWritesTheTagAndTheDigits : Prop :=
  ∀ (s : State) (n : Nat), n ≤ 51 →
    (∃ cells : List Byte,
      exec (.snapA n) s = .next { s with out := { Results.absent with
        status := some .ok, rt := some cells
        rtlen := some (BitVec.ofNat 8 (s.cfg.snapTag.length + 64)) } } ∧
      cells.length = s.cfg.snapTag.length + 64 ∧ s.cfg.snapTag <+: cells ∧
      ∀ i, i < 64 → (cells[s.cfg.snapTag.length + i]?).map (fun cell => cell.toNat) =
        hexAlphabet[(pack s.cfg s.inp.a).toNat / 2 ^ (256 - 5 * n) * 2 ^ (256 - 5 * n)
          / 2 ^ (252 - 4 * i) % 16]?) ∧
    (∃ cells : List Byte,
      exec (.snapP n) s = .next { s with out := { Results.absent with
        status := some .ok, rt := some cells
        rtlen := some (BitVec.ofNat 8 (s.cfg.snapTag.length + 64)) } } ∧
      cells.length = s.cfg.snapTag.length + 64 ∧ s.cfg.snapTag <+: cells ∧
      ∀ i, i < 64 → (cells[s.cfg.snapTag.length + i]?).map (fun cell => cell.toNat) =
        hexAlphabet[s.inp.p.toNat / 2 ^ (256 - 5 * n) * 2 ^ (256 - 5 * n) / 2 ^ (252 - 4 * i) % 16]?)

/-- 42_comparator.md R153: two Addresses give the same token exactly when EQW answers 1 at that precision. -/
def Obligations.TokensAgreeExactlyWhenEqwDoes : Prop :=
  ∀ (s sb ta tb tf : State) (n : Nat), n ≤ 51 → sb.cfg = s.cfg → sb.inp.a = s.inp.b →
    exec (.snapA n) s = .next ta → exec (.snapA n) sb = .next tb → exec (.eqwA n) s = .next tf →
    (ta.out.rt = tb.out.rt ↔ tf.out.rf = some true)

/-! Runs. -/

/-- 20_memory.md R48, 60_exceptions.md R167, 70_reset_and_hazards.md R188, R196: from any state with reset released, a run of transactions gives, in their order and with none dropped, the results each transaction would give as the first after reset. What a transaction gives alone is `respond`, which starts at State.reset with reset released: that reading is the model's (log entry 5), and a run as a list of host events is the model's too (log entry 14). -/
def Obligations.RunGivesEachTransactionItsOwnResult : Prop :=
  ∀ (ops : List Operands) (s : State), s.rst = false →
    (hostRun (ops.map .transact) s).2 = (ops.map (respond s.cfg)).flatten ∧
    ((hostRun (ops.map .transact) s).2).length = ops.length

/-- 70_reset_and_hazards.md R185: a reset in the middle of a run abandons the transaction under way, refuses those presented while it is asserted, and leaves no trace of what came before. That reset is asserted before the step that would have delivered, and is sampled with the transaction, is the model's choice (log entry 9); that a block fresh from reset has reset released is its reading (log entry 5). -/
def Obligations.ResetLeavesNoTraceInARun : Prop :=
  ∀ (before during after : List Operands) (under : Operands) (s : State), s.rst = false →
    (hostRun (before.map .transact ++ [.resetDuring under] ++ during.map .transact ++ [.releaseReset] ++
        after.map .transact) s).2 =
      (hostRun (before.map .transact) s).2 ++
        (hostRun (after.map .transact) { State.reset with cfg := s.cfg }).2

/-- 60_exceptions.md R178, 20_memory.md R48: of several hosts taking turns each gets the results it would get alone, whatever the others do. Several hosts as a list of numbered transactions is the model's choice (log entry 14). -/
def Obligations.HostsDoNotInfluenceOneAnother : Prop :=
  ∀ (h : Nat) (issued : List (Nat × Operands)) (s : State), s.rst = false →
    (sharedRun issued s).filter (fun r => r.1 == h) =
      sharedRun (issued.filter (fun r => r.1 == h)) s
end

