-- ==== Sys2Proof/Laws/Packed.lean ====
section
/-! SUPPORT. The fields of the packed word (spec/30_encoding.md R60, R61, R62). -/

namespace Sys2Proof.Machine

/-- The unsigned value of `bits_N(z)` is `z mod 2^N` (spec/00_scope.md R13). -/
theorem uZ_bitsN (n : Nat) (z : Int) : uZ (bitsN n z) = z % 2 ^ n := by
  simp [uZ, bitsN, BitVec.toNat_ofInt]
  exact Int.emod_nonneg _ (by positivity)

/-- Two bit vectors are equal when their unsigned values are. -/
theorem eq_of_uZ_eq {n : Nat} {x y : BitVec n} (h : uZ x = uZ y) : x = y :=
  BitVec.eq_of_toNat_eq (by exact_mod_cast h)

theorem uZ_nonneg {n : Nat} (x : BitVec n) : 0 ≤ uZ x := by simp [uZ]

theorem uZ_lt {n : Nat} (x : BitVec n) : uZ x < 2 ^ n := by
  have := x.isLt; simp only [uZ]; exact_mod_cast this

/-- Signed and unsigned value of a field. -/
theorem sZ_field (x : Field) : sZ x = if uZ x < 2 ^ 63 then uZ x else uZ x - 2 ^ 64 := by
  have h : x.toInt = if 2 * x.toNat < 2 ^ 64 then (x.toNat : Int) else (x.toNat : Int) - (2 ^ 64 : Nat) :=
    BitVec.toInt_eq_toNat_cond x
  simp only [sZ, uZ, h]
  split <;> split <;> omega

theorem sZ_field_range (x : Field) : -2 ^ 63 ≤ sZ x ∧ sZ x < 2 ^ 63 := by
  have h1 := uZ_lt x
  have h2 := uZ_nonneg x
  rw [sZ_field]; split <;> omega

theorem sZ_emod (x : Field) : sZ x % 2 ^ 64 = uZ x := by
  have h1 := uZ_lt x
  have h2 := uZ_nonneg x
  rw [sZ_field]; split <;> omega

theorem uZ_codeField_bias {c : Config} (h : c.signConv = .bias) (b : Nat) (x : Field) :
    uZ (codeField c b x) = (sZ x + b) % 2 ^ 64 := by
  rw [codeField, h, ← uZ_bitsN]

theorem codeField_bitcast {c : Config} (h : c.signConv = .bitcast) (b : Nat) (x : Field) :
    codeField c b x = x := by
  apply eq_of_uZ_eq
  rw [codeField, h]
  exact (uZ_bitsN 64 _).trans (sZ_emod x)

theorem uZ_fieldCode_bias {c : Config} (h : c.signConv = .bias) (b : Nat) (x : Field) :
    uZ (fieldCode c b x) = (uZ x - b) % 2 ^ 64 := by
  rw [fieldCode, h, ← uZ_bitsN]

theorem fieldCode_bitcast {c : Config} (h : c.signConv = .bitcast) (b : Nat) (x : Field) :
    fieldCode c b x = x := by rw [fieldCode, h]

/-- The two field maps undo each other, under either convention (spec/30_encoding.md R61, R62). -/
theorem fieldCode_codeField (c : Config) (b : Nat) (x : Field) : fieldCode c b (codeField c b x) = x := by
  cases h : c.signConv with
  | bias =>
    apply eq_of_uZ_eq
    rw [uZ_fieldCode_bias h, uZ_codeField_bias h, Int.sub_emod, Int.emod_emod, ← Int.sub_emod,
      add_sub_cancel_right, sZ_emod]
  | bitcast => rw [codeField_bitcast h, fieldCode_bitcast h]

theorem codeField_fieldCode (c : Config) (b : Nat) (x : Field) : codeField c b (fieldCode c b x) = x := by
  cases h : c.signConv with
  | bias =>
    apply eq_of_uZ_eq
    rw [uZ_codeField_bias h, Int.add_emod, sZ_emod, uZ_fieldCode_bias h, ← Int.add_emod,
      sub_add_cancel, Int.emod_eq_of_lt (uZ_nonneg x) (uZ_lt x)]
  | bitcast => rw [fieldCode_bitcast h, codeField_bitcast h]

/-- The value of a packed word. -/
theorem pack_toNat (c : Config) (a : Address) :
    (pack c a).toNat = a.frame.toNat * 2 ^ 192 + a.radius.toNat * 2 ^ 128 + (latField c a.lat).toNat * 2 ^ 64
      + (lonField c a.lon).toNat := by
  have h : (pack c a).toNat =
      (a.frame ++ a.radius ++ latField c a.lat ++ lonField c a.lon : BitVec (64 + 64 + 64 + 64)).toNat := rfl
  rw [h, BitVec.toNat_append, BitVec.toNat_append, BitVec.toNat_append,
    ← Nat.shiftLeft_add_eq_or_of_lt a.radius.isLt, ← Nat.shiftLeft_add_eq_or_of_lt (latField c a.lat).isLt,
    ← Nat.shiftLeft_add_eq_or_of_lt (lonField c a.lon).isLt]
  simp only [Nat.shiftLeft_eq]
  ring

theorem uZ_pack (c : Config) (a : Address) :
    uZ (pack c a) = uZ a.frame * 2 ^ 192 + uZ a.radius * 2 ^ 128 + uZ (latField c a.lat) * 2 ^ 64
      + uZ (lonField c a.lon) := by
  simp only [uZ, pack_toNat]; push_cast; ring

/-- A slice of a word as a number. -/
theorem slice_toNat (p : Packed) (lo len : Nat) : (p.extractLsb' lo len).toNat = p.toNat / 2 ^ lo % 2 ^ len := by
  simp [Nat.shiftRight_eq_div_pow]

/-- The four slices of a packed word. -/
theorem pack_frame (c : Config) (a : Address) : (pack c a).extractLsb' 192 64 = a.frame := by
  apply BitVec.eq_of_toNat_eq
  have h1 := a.frame.isLt; have h2 := a.radius.isLt; have h3 := (latField c a.lat).isLt; have h4 := (lonField c a.lon).isLt
  rw [slice_toNat, pack_toNat]; omega

theorem pack_radius (c : Config) (a : Address) : (pack c a).extractLsb' 128 64 = a.radius := by
  apply BitVec.eq_of_toNat_eq
  have h1 := a.frame.isLt; have h2 := a.radius.isLt; have h3 := (latField c a.lat).isLt; have h4 := (lonField c a.lon).isLt
  rw [slice_toNat, pack_toNat]; omega

theorem pack_lat (c : Config) (a : Address) : (pack c a).extractLsb' 64 64 = latField c a.lat := by
  apply BitVec.eq_of_toNat_eq
  have h1 := a.frame.isLt; have h2 := a.radius.isLt; have h3 := (latField c a.lat).isLt; have h4 := (lonField c a.lon).isLt
  rw [slice_toNat, pack_toNat]; omega

theorem pack_lon (c : Config) (a : Address) : (pack c a).extractLsb' 0 64 = lonField c a.lon := by
  apply BitVec.eq_of_toNat_eq
  have h1 := a.frame.isLt; have h2 := a.radius.isLt; have h3 := (latField c a.lat).isLt; have h4 := (lonField c a.lon).isLt
  rw [slice_toNat, pack_toNat]; omega

theorem Address_ext {a b : Address} (hf : a.frame = b.frame) (hr : a.radius = b.radius)
    (ht : a.lat = b.lat) (hn : a.lon = b.lon) : a = b := by
  cases a; cases b; simp_all

/-- Unpacking a packed Address gives it back (spec/30_encoding.md R62). -/
theorem unpack_pack (c : Config) (a : Address) : unpack c (pack c a) = a := by
  apply Address_ext
  · exact pack_frame c a
  · exact pack_radius c a
  · simp only [unpack, pack_lat, latField, fieldCode_codeField]
  · simp only [unpack, pack_lon, lonField, fieldCode_codeField]

/-- Packing an unpacked word gives it back (spec/30_encoding.md R62). -/
theorem pack_unpack (c : Config) (p : Packed) : pack c (unpack c p) = p := by
  apply BitVec.eq_of_toNat_eq
  have hp := p.isLt
  rw [pack_toNat]
  simp only [unpack, latField, lonField, codeField_fieldCode, slice_toNat]
  omega

/-- Packing reads of the parameters the sign convention alone. -/
theorem pack_congr {c c' : Config} (h : c.signConv = c'.signConv) (a : Address) : pack c a = pack c' a := by
  simp [pack, latField, lonField, codeField, h]

theorem unpack_congr {c c' : Config} (h : c.signConv = c'.signConv) (p : Packed) : unpack c p = unpack c' p := by
  simp [unpack, fieldCode, h]

/-- Packing is injective (spec/30_encoding.md R61, R62). -/
theorem pack_inj (c : Config) {a b : Address} (h : pack c a = pack c b) : a = b := by
  rw [← unpack_pack c a, h, unpack_pack]

/-- The upper half of the packed word is frame and radius, whatever the sign convention (spec/30_encoding.md R60). -/
theorem pack_upper_bit (c : Config) (a : Address) (k : Nat) :
    (pack c a).getLsbD (128 + k) = (a.frame ++ a.radius).getLsbD k := by
  simp only [pack, BitVec.getLsbD_append]
  rw [if_neg (by omega), if_neg (by omega)]
  have e : 128 + k - 64 - 64 = k := by omega
  rw [e]

/-- The top 64 bits of the packed word are the frame (spec/30_encoding.md R60). -/
theorem pack_frame_bit (c : Config) (a : Address) (k : Nat) : (pack c a).getLsbD (192 + k) = a.frame.getLsbD k := by
  rw [show 192 + k = 128 + (64 + k) by omega, pack_upper_bit, BitVec.getLsbD_append, if_neg (by omega),
    Nat.add_sub_cancel_left]

end Sys2Proof.Machine
end

