-- ==== Sys2Proof/Laws/Delta.lean ====
section
/-! SUPPORT. The normalisation of APPLY and the difference of SUB (spec/41_delta.md R112 to R119, R125). -/

namespace Sys2Proof.Machine

/-- `ceil_div(x, m)` is the least `q` with `q * m ≥ x` (spec/00_scope.md R13). -/
theorem ceilDiv_le_iff (x m q : Nat) (hm : 0 < m) : ceilDiv x m ≤ q ↔ x ≤ q * m := by
  unfold ceilDiv
  rw [← Nat.lt_succ_iff, Nat.div_lt_iff_lt_mul hm, Nat.succ_mul]; omega

/-- The Euclidean remainder of spec/00_scope.md R13. -/
theorem emod_range (x : Int) (m : Nat) (hm : 0 < m) : 0 ≤ emod x m ∧ emod x m < m :=
  ⟨Int.emod_nonneg _ (by omega), Int.emod_lt_of_pos _ (by omega)⟩

/-- A value in the 64-bit signed range survives being put on a bus. -/
theorem sZ_bitsN_field {z : Int} (h1 : -2 ^ 63 ≤ z) (h2 : z < 2 ^ 63) : sZ (bitsN 64 z) = z := by
  rw [sZ_field, uZ_bitsN]; split <;> omega

theorem uZ_bitsN_field {z : Int} (h1 : 0 ≤ z) (h2 : z < 2 ^ 64) : uZ (bitsN 64 z) = z := by
  rw [uZ_bitsN]; omega

theorem bitsN_sZ (x : Field) : bitsN 64 (sZ x) = x := by
  apply eq_of_uZ_eq; rw [uZ_bitsN, sZ_emod]

/-- A value in the 128-bit signed range survives being put on a Delta bus. -/
theorem sZ_bitsN_delta {z : Int} (h1 : -2 ^ 127 ≤ z) (h2 : z < 2 ^ 127) : sZ (bitsN 128 z) = z := by
  simp only [sZ, bitsN, BitVec.toInt_ofInt]
  exact Int.bmod_eq_of_le (by norm_num; omega) (by norm_num; omega)

/-- The number of crossings, as one quotient (spec/41_delta.md R116). -/
theorem crossings_eq (x : Int) : crossings x = (x.natAbs - 90000000 + 179999999) / 180000000 := by
  unfold crossings ceilDiv latMax lonHalf
  split <;> omega

theorem crossings_eq_zero (x : Int) : crossings x = 0 ↔ |x| ≤ 90000000 := by
  rw [crossings_eq, abs_le]; omega

/-- The reflected latitude in its two cases. -/
theorem reflectLat_eq (x : Int) :
    reflectLat x = if (0 ≤ x ↔ crossings x % 2 = 0) then (x.natAbs : Int) - 180000000 * crossings x
      else 180000000 * crossings x - (x.natAbs : Int) := by
  simp only [reflectLat, lonHalf, decide_eq_decide]
  split
  · rfl
  · push_cast; ring

/-- The latitude after one turn. -/
def turnedLat (x : Int) : Int := if 90000000 < x then 180000000 - x else -180000000 - x

theorem poleTurn_eq (x z : Int) : poleTurn (x, z) = (turnedLat x, z + 180000000) := by
  unfold poleTurn turnedLat
  by_cases h : 90000000 < x
  · rw [if_pos h, if_pos (show ((latMax : Nat) : Int) < (x, z).1 from h)]; rfl
  · rw [if_neg h, if_neg (show ¬ ((latMax : Nat) : Int) < (x, z).1 from h)]; rfl

/-- A turn of the loop takes one crossing off and leaves the reflected latitude alone. -/
theorem crossings_turnedLat {x : Int} (h : 90000000 < |x|) : crossings (turnedLat x) + 1 = crossings x := by
  rw [lt_abs] at h
  rw [crossings_eq, crossings_eq, turnedLat]
  split <;> omega

theorem reflectLat_turnedLat {x : Int} (h : 90000000 < |x|) : reflectLat (turnedLat x) = reflectLat x := by
  have hk := crossings_turnedLat h
  rw [reflectLat_eq, reflectLat_eq, ← hk]
  have hc := crossings_eq (turnedLat x)
  generalize crossings (turnedLat x) = k at *
  rw [lt_abs] at h
  unfold turnedLat at *
  split at hc <;> split <;> split <;> omega

/-- The loop's own test. -/
theorem poleLoop_succ (fuel : Nat) (x z : Int) :
    poleLoop (fuel + 1) (x, z) = if 90000000 < |x| then poleLoop fuel (turnedLat x, z + 180000000) else (x, z) := by
  simp only [poleLoop, latMax, poleTurn_eq]
  have : ((90000000 : Nat) < x ∨ x < -((90000000 : Nat) : Int)) ↔ 90000000 < |x| := by
    rw [lt_abs]; omega
  simp only [this]

/-- Inside the range there is nothing to reflect. -/
theorem reflectLat_inside {x : Int} (h : |x| ≤ 90000000) : reflectLat x = x := by
  have h0 := (crossings_eq_zero x).mpr h
  rw [reflectLat_eq, h0]
  split <;> omega

/-- Enough turns give the reflected latitude and half a turn of longitude for each crossing (spec/41_delta.md R115, R116). -/
theorem poleLoop_enough (fuel : Nat) (x z : Int) (h : crossings x ≤ fuel) :
    poleLoop fuel (x, z) = (reflectLat x, z + 180000000 * crossings x) := by
  induction fuel generalizing x z with
  | zero =>
    have h0 : crossings x = 0 := by omega
    rw [reflectLat_inside ((crossings_eq_zero x).mp h0), h0]; simp [poleLoop]
  | succ fuel ih =>
    rw [poleLoop_succ]
    split
    next hx =>
      have hk := crossings_turnedLat hx
      rw [ih _ _ (by omega), reflectLat_turnedLat hx, ← hk]
      push_cast; congr 1; ring
    next hx =>
      have hx' : |x| ≤ 90000000 := by omega
      rw [reflectLat_inside hx', (crossings_eq_zero x).mpr hx']; simp

/-- Before that the latitude is still outside. -/
theorem poleLoop_early (fuel : Nat) (x z : Int) (h : fuel < crossings x) :
    90000000 < |(poleLoop fuel (x, z)).1| := by
  induction fuel generalizing x z with
  | zero =>
    by_contra hc
    have : |x| ≤ 90000000 := by simpa [poleLoop] using hc
    rw [(crossings_eq_zero x).mpr this] at h; omega
  | succ fuel ih =>
    have hx : 90000000 < |x| := by
      by_contra hc
      rw [(crossings_eq_zero x).mpr (by omega)] at h; omega
    have hk := crossings_turnedLat hx
    rw [poleLoop_succ, if_pos hx]
    exact ih _ _ (by omega)

/-- A loop that ended inside the range ran enough turns. -/
theorem crossings_le_of_inside {fuel : Nat} {x z : Int} (h : |(poleLoop fuel (x, z)).1| ≤ 90000000) :
    crossings x ≤ fuel := by
  by_contra hc
  have := poleLoop_early fuel x z (by omega); omega

/-- The reflected latitude is in the range. -/
theorem reflectLat_range (x : Int) : |reflectLat x| ≤ 90000000 := by
  rw [reflectLat_eq, crossings_eq, abs_le]
  split <;> omega

/-- The clamp of step 4 changes nothing inside the range (spec/41_delta.md R117). -/
theorem clampLat_inside {x : Int} (h : |x| ≤ 90000000) : clampLat x = x := by
  rw [abs_le] at h; simp only [clampLat, latMax]; omega

/-- The longitude is brought into its interval, by whole turns (spec/41_delta.md R119). -/
theorem wrapLon_eq (z : Int) : wrapLon z = (z + 180000000) % 360000000 - 180000000 := rfl

theorem wrapLon_range (z : Int) : -180000000 ≤ wrapLon z ∧ wrapLon z < 180000000 := by
  rw [wrapLon_eq]; omega

theorem wrapLon_turns (z : Int) : (wrapLon z - z) % 360000000 = 0 := by
  rw [wrapLon_eq]; omega

theorem wrapLon_inside {z : Int} (h1 : -180000000 ≤ z) (h2 : z < 180000000) : wrapLon z = z := by
  rw [wrapLon_eq]; omega

theorem wrapLon_congr {z w : Int} (h : (z - w) % 360000000 = 0) : wrapLon z = wrapLon w := by
  rw [wrapLon_eq, wrapLon_eq]; omega

/-- Only the parity of the crossings reaches the longitude (spec/41_delta.md R116). -/
theorem normalise_eq (x z : Int) : normalise x z = (reflectLat x, wrapLon (z + 180000000 * crossings x)) := by
  unfold normalise lonHalf
  congr 1
  apply wrapLon_congr
  omega

/-- The fields of what APPLY delivers. -/
theorem applyDelta_frame (c : Config) (a : Address) (d : Delta) : (applyDelta c a d).frame = a.frame := rfl

theorem applyDelta_lat (c : Config) (a : Address) (d : Delta) :
    sZ (applyDelta c a d).lat = reflectLat (sZ a.lat + sZ d.dlat) := by
  have := reflectLat_range (sZ a.lat + sZ d.dlat)
  rw [abs_le] at this
  exact sZ_bitsN_field (by simp only [normalise]; omega) (by simp only [normalise]; omega)

theorem applyDelta_lon (c : Config) (a : Address) (d : Delta) :
    sZ (applyDelta c a d).lon =
      wrapLon (sZ a.lon + sZ d.dlon + 180000000 * crossings (sZ a.lat + sZ d.dlat)) := by
  have h := wrapLon_range (sZ a.lon + sZ d.dlon + 180000000 * crossings (sZ a.lat + sZ d.dlat))
  simp only [applyDelta, normalise_eq]
  exact sZ_bitsN_field (by omega) (by omega)

theorem applyDelta_radius (c : Config) (a : Address) (d : Delta) :
    (applyDelta c a d).radius = applyRadius c a.radius d.dr := rfl

/-- The radius sum inside the field's range is delivered as it is (spec/41_delta.md R113). -/
theorem applyRadius_exact {c : Config} {r : Field} {dr : DeltaField} (h1 : 0 ≤ uZ r + sZ dr)
    (h2 : uZ r + sZ dr ≤ 2 ^ 64 - 1) : uZ (applyRadius c r dr) = uZ r + sZ dr := by
  unfold applyRadius fieldMax
  simp only
  rw [if_neg (by omega), if_neg (by omega)]
  exact uZ_bitsN_field h1 (by omega)

/-- The fields of a difference are exact (spec/41_delta.md R125). -/
theorem addressDiff_dr (a b : Address) : sZ (addressDiff a b).dr = uZ a.radius - uZ b.radius := by
  have h1 := uZ_lt a.radius; have h2 := uZ_lt b.radius
  have h3 := uZ_nonneg a.radius; have h4 := uZ_nonneg b.radius
  exact sZ_bitsN_delta (by omega) (by omega)

theorem addressDiff_dlat (a b : Address) : sZ (addressDiff a b).dlat = sZ a.lat - sZ b.lat := by
  have h1 := sZ_field_range a.lat; have h2 := sZ_field_range b.lat
  exact sZ_bitsN_delta (by omega) (by omega)

theorem addressDiff_dlon (a b : Address) : sZ (addressDiff a b).dlon = sZ a.lon - sZ b.lon := by
  have h1 := sZ_field_range a.lon; have h2 := sZ_field_range b.lon
  exact sZ_bitsN_delta (by omega) (by omega)

end Sys2Proof.Machine
end

