-- ==== Sys2Proof/Laws/Encoding.lean ====
section
/-! SUPPORT. The fields of a command word and of an encoded one (spec/30_encoding.md R56). -/

namespace Sys2Proof

/-- The fields of a word as numbers. -/
theorem cmdRsv_toNat (w : CmdWord) : (cmdRsv w).toNat = w.toNat / 8192 := by
  have := w.isLt
  simp [cmdRsv, Nat.shiftRight_eq_div_pow]; omega

theorem cmdUnits_eq (w : CmdWord) : cmdUnits w = w.toNat / 32 % 256 := by
  simp [cmdUnits, Nat.shiftRight_eq_div_pow]

theorem cmdPk_toNat (w : CmdWord) : (cmdPk w).toNat = w.toNat / 16 % 2 := by
  simp [cmdPk, Nat.shiftRight_eq_div_pow]

theorem cmdOp_toNat (w : CmdWord) : (cmdOp w).toNat = w.toNat % 16 := by
  simp [cmdOp]

/-- An encoded word as a number. -/
theorem cmdOf_toNat (n : Nat) (pk : BitVec 1) (op : BitVec 4) :
    (cmdOf n pk op).toNat = (n % 256) * 32 + pk.toNat * 16 + op.toNat := by
  have h1 : pk.toNat < 2 := pk.isLt
  have h2 : op.toNat < 16 := op.isLt
  simp only [cmdOf, BitVec.toNat_append, BitVec.toNat_ofNat]
  rw [← Nat.shiftLeft_add_eq_or_of_lt (by simpa using h2), ← Nat.shiftLeft_add_eq_or_of_lt (by simpa using h1),
    ← Nat.shiftLeft_add_eq_or_of_lt (by omega)]
  simp [Nat.shiftLeft_eq]
  omega

theorem cmdRsv_cmdOf (n : Nat) (pk : BitVec 1) (op : BitVec 4) : cmdRsv (cmdOf n pk op) = 0 := by
  have h1 : pk.toNat < 2 := pk.isLt
  have h2 : op.toNat < 16 := op.isLt
  apply BitVec.eq_of_toNat_eq
  rw [cmdRsv_toNat, cmdOf_toNat]; simp; omega

theorem cmdUnits_cmdOf (n : Nat) (pk : BitVec 1) (op : BitVec 4) : cmdUnits (cmdOf n pk op) = n % 256 := by
  have h1 : pk.toNat < 2 := pk.isLt
  have h2 : op.toNat < 16 := op.isLt
  rw [cmdUnits_eq, cmdOf_toNat]; omega

theorem cmdPk_cmdOf (n : Nat) (pk : BitVec 1) (op : BitVec 4) : cmdPk (cmdOf n pk op) = pk := by
  have h1 : pk.toNat < 2 := pk.isLt
  have h2 : op.toNat < 16 := op.isLt
  apply BitVec.eq_of_toNat_eq
  rw [cmdPk_toNat, cmdOf_toNat]; omega

theorem cmdOp_cmdOf (n : Nat) (pk : BitVec 1) (op : BitVec 4) : cmdOp (cmdOf n pk op) = op := by
  have h2 : op.toNat < 16 := op.isLt
  apply BitVec.eq_of_toNat_eq
  rw [cmdOp_toNat, cmdOf_toNat]; omega

/-- A word is its fields put together, when `rsv` is 0. -/
theorem cmdOf_fields (w : CmdWord) (h : cmdRsv w = 0) : cmdOf (cmdUnits w) (cmdPk w) (cmdOp w) = w := by
  have h0 := congrArg BitVec.toNat h
  rw [cmdRsv_toNat] at h0
  apply BitVec.eq_of_toNat_eq
  rw [cmdOf_toNat, cmdUnits_eq, cmdPk_toNat, cmdOp_toNat]
  simp at h0; omega

/-- What the decoder answers to a word put together from its fields. -/
theorem decode_cmdOf (n : Nat) (pk : BitVec 1) (op : BitVec 4) :
    decode (cmdOf n pk op) = decodeOp (cmdOf n pk op) := by simp [decode, cmdRsv_cmdOf]

/-- The mask of the rows with a count keeps `rsv`, `pk` and `op` (30_encoding.md R59). -/
theorem and_units_mask (w : CmdWord) :
    w &&& 0xE01F#16 = (cmdRsv w ++ 0#8 ++ cmdPk w ++ cmdOp w : BitVec 16) := by
  apply BitVec.eq_of_getLsbD_eq
  intro i hi
  simp only [cmdRsv, cmdPk, cmdOp, BitVec.getLsbD_and, BitVec.getLsbD_append, BitVec.getLsbD_extractLsb']
  interval_cases i <;> simp

theorem masked_toNat (w : CmdWord) :
    (w &&& 0xE01F#16).toNat = w.toNat / 8192 * 8192 + w.toNat / 16 % 2 * 16 + w.toNat % 16 := by
  have hw := w.isLt
  rw [and_units_mask]
  have h1 : (cmdPk w).toNat < 2 := (cmdPk w).isLt
  have h2 : (cmdOp w).toNat < 16 := (cmdOp w).isLt
  simp only [BitVec.toNat_append]
  rw [← Nat.shiftLeft_add_eq_or_of_lt (by simpa using h2), ← Nat.shiftLeft_add_eq_or_of_lt (by simpa using h1),
    ← Nat.shiftLeft_add_eq_or_of_lt (by simp)]
  rw [cmdRsv_toNat, cmdPk_toNat, cmdOp_toNat]
  simp [Nat.shiftLeft_eq]
  omega

/-- The mask of the other rows keeps every bit. -/
theorem and_full_mask (w : CmdWord) : w &&& 0xFFFF#16 = w := by
  have := BitVec.and_allOnes (x := w); simpa using this

end Sys2Proof
end

