-- ==== Sys2Proof/Laws/HexText.lean ====
section
/-! SUPPORT. The hex text: its digits, its cells, and reading it back (spec/30_encoding.md R65; spec/40_codec.md R96, R100). -/

namespace Sys2Proof.Machine

theorem nibble_toNat (p : Packed) (i : Nat) : (nibble p i).toNat = p.toNat / 2 ^ (252 - 4 * i) % 16 := by
  simp [nibble, Nat.shiftRight_eq_div_pow]

/-- A word is determined by its 64 digits. -/
theorem eq_of_nibbles {p q : Packed} (h : ∀ i, i < 64 → nibble p i = nibble q i) : p = q := by
  apply BitVec.eq_of_getLsbD_eq
  intro b hb
  have key : ∀ r : Packed, r.getLsbD b = (nibble r (63 - b / 4)).getLsbD (b % 4) := by
    intro r
    have e : 252 - 4 * (63 - b / 4) + b % 4 = b := by omega
    have l : b % 4 < 4 := by omega
    simp only [nibble, BitVec.getLsbD_extractLsb', e, l, decide_true, Bool.true_and]
  rw [key p, key q, h _ (by omega)]

/-- Appending a digit to a list of digits. -/
theorem digitsValue_append (vs : List (BitVec 4)) (v : BitVec 4) :
    digitsValue (vs ++ [v]) = digitsValue vs * 16 + v.toNat := by simp [digitsValue]

theorem digitsValue_lt (vs : List (BitVec 4)) : digitsValue vs < 16 ^ vs.length := by
  induction vs using List.reverseRecOn with
  | nil => simp [digitsValue]
  | append_singleton vs v ih =>
    have := v.isLt
    rw [digitsValue_append, List.length_append, List.length_singleton, Nat.pow_succ]
    omega

/-- Digit `i` of the number a list of digits spells. -/
theorem digitsValue_digit (vs : List (BitVec 4)) (i : Nat) (h : i < vs.length) :
    digitsValue vs / 16 ^ (vs.length - 1 - i) % 16 = vs[i].toNat := by
  induction vs using List.reverseRecOn with
  | nil => simp at h
  | append_singleton vs v ih =>
    have hv := v.isLt
    rw [digitsValue_append]
    by_cases e : i = vs.length
    · subst e; simp; omega
    · have hi : i < vs.length := by simp at h; omega
      have : (vs ++ [v]).length - 1 - i = (vs.length - 1 - i) + 1 := by simp; omega
      rw [this, Nat.pow_succ', ← Nat.div_div_eq_div_mul, List.getElem_append_left hi, ← ih hi]
      congr 2; omega

/-- The digits of the word a list of 64 digits spells are those digits. -/
theorem nibble_joinDigits (vs : List (BitVec 4)) (hl : vs.length = 64) (i : Nat) (h : i < vs.length) :
    nibble (joinDigits vs) i = vs[i] := by
  apply BitVec.eq_of_toNat_eq
  have hv : digitsValue vs % 2 ^ 256 = digitsValue vs :=
    Nat.mod_eq_of_lt (by have := digitsValue_lt vs; rw [hl] at this; exact this)
  rw [nibble_toNat, joinDigits, BitVec.toNat_ofNat, hv, ← digitsValue_digit vs i h]
  have : (2 : Nat) ^ (252 - 4 * i) = 16 ^ (vs.length - 1 - i) := by
    rw [show (16 : Nat) = 2 ^ 4 from rfl, ← Nat.pow_mul]; congr 1; omega
  rw [this]

theorem joinDigits_nibbles (p : Packed) : joinDigits ((List.range 64).map (nibble p)) = p := by
  apply eq_of_nibbles
  intro i hi
  rw [nibble_joinDigits _ (by simp) i (by simpa using hi)]
  simp

/-- The cells of a hex text. -/
@[simp] theorem hexText_length (p : Packed) : (hexText p).length = 64 := by simp [hexText, hexLen]

theorem hexText_getElem? (p : Packed) (i : Nat) (h : i < 64) : (hexText p)[i]? = some (hexDigit (nibble p i)) := by
  simp [hexText, hexLen, h]

theorem hexText_joinDigits (vs : List (BitVec 4)) (hl : vs.length = 64) :
    hexText (joinDigits vs) = vs.map hexDigit := by
  apply List.ext_getElem (by simp [hl])
  intro i h1 h2
  simp only [hexText, List.getElem_map, List.getElem_range]
  rw [nibble_joinDigits vs hl i (by simpa using h2)]

/-- The character of a digit, by the alphabet (spec/30_encoding.md R65). -/
theorem hexDigit_alphabet (v : BitVec 4) : some (hexDigit v).toNat = hexAlphabet[v.toNat]? := by
  revert v; decide

/-- Reading a written digit back. -/
theorem hexVal_hexDigit (c : Config) (v : BitVec 4) : hexVal c (hexDigit v) = some v := by
  have h : ∀ v : BitVec 4, (0x30 ≤ (hexDigit v).toNat ∧ (hexDigit v).toNat ≤ 0x39 ∧
      BitVec.ofNat 4 ((hexDigit v).toNat - 0x30) = v) ∨
      (¬ ((hexDigit v).toNat ≤ 0x39) ∧ 0x61 ≤ (hexDigit v).toNat ∧ (hexDigit v).toNat ≤ 0x66 ∧
        BitVec.ofNat 4 ((hexDigit v).toNat - 0x61 + 10) = v) := by decide
  unfold hexVal
  rcases h v with ⟨h1, h2, h3⟩ | ⟨h1, h2, h3, h4⟩
  · rw [if_pos ⟨h1, h2⟩, h3]
  · rw [if_neg (fun hh => h1 hh.2), if_pos ⟨h2, h3⟩, h4]

/-- A cell that reads as a digit is written back in lower case (spec/40_codec.md R103). -/
theorem hexDigit_of_hexVal {c : Config} {cell : Byte} {v : BitVec 4} (h : hexVal c cell = some v) :
    hexDigit v = lowerCell cell := by
  have dig : ∀ cell : Byte, 0x30 ≤ cell.toNat ∧ cell.toNat ≤ 0x39 →
      hexDigit (BitVec.ofNat 4 (cell.toNat - 0x30)) = lowerCell cell := by decide
  have low : ∀ cell : Byte, 0x61 ≤ cell.toNat ∧ cell.toNat ≤ 0x66 →
      hexDigit (BitVec.ofNat 4 (cell.toNat - 0x61 + 10)) = lowerCell cell := by decide
  have upp : ∀ cell : Byte, 0x41 ≤ cell.toNat ∧ cell.toNat ≤ 0x46 →
      hexDigit (BitVec.ofNat 4 (cell.toNat - 0x41 + 10)) = lowerCell cell := by decide
  unfold hexVal at h
  split at h
  · cases h; exact dig cell ‹_›
  · split at h
    · cases h; exact low cell ‹_›
    · split at h
      next h3 => cases h; exact upp cell ⟨h3.1, h3.2.1⟩
      next => cases h

/-- Which cells are digits. -/
theorem hexVal_isSome (c : Config) (cell : Byte) : (hexVal c cell).isSome = isHexCell c cell := by
  unfold hexVal isHexCell
  split
  · simp [*]
  · split
    · simp [*]
    · split
      next h1 h2 h3 => simp [h3]
      next h1 h2 h3 =>
        simp only [h1, h2, decide_false, Bool.false_or, Option.isSome_none]
        simp only [Bool.false_eq, Bool.and_eq_false_iff, decide_eq_false_iff_not]
        tauto

/-- Reading a list of cells. -/
theorem hexVals_none (c : Config) (cells : List Byte) :
    hexVals c cells = none ↔ ∃ cell ∈ cells, hexVal c cell = none := by
  induction cells with
  | nil => simp [hexVals]
  | cons x xs ih =>
    simp only [hexVals, List.mem_cons, exists_eq_or_imp, ← ih]
    cases hexVal c x <;> cases hexVals c xs <;> simp

theorem hexVals_some {c : Config} {cells : List Byte} {vs : List (BitVec 4)} (h : hexVals c cells = some vs) :
    cells.map (hexVal c) = vs.map some := by
  induction cells generalizing vs with
  | nil => simp [hexVals] at h; subst h; rfl
  | cons x xs ih =>
    simp only [hexVals] at h
    split at h
    next v ws hv hw => cases h; simp [hv, ih hw]
    next => cases h

theorem hexVals_length {c : Config} {cells : List Byte} {vs : List (BitVec 4)} (h : hexVals c cells = some vs) :
    vs.length = cells.length := by
  have := congrArg List.length (hexVals_some h); simpa using this.symm

theorem hexVals_map_hexDigit (c : Config) (vs : List (BitVec 4)) : hexVals c (vs.map hexDigit) = some vs := by
  induction vs with
  | nil => rfl
  | cons v vs ih => simp [hexVals, hexVal_hexDigit, ih]

/-- The digits read are written back in lower case. -/
theorem map_hexDigit_of_hexVals {c : Config} {cells : List Byte} {vs : List (BitVec 4)}
    (h : hexVals c cells = some vs) : vs.map hexDigit = cells.map lowerCell := by
  induction cells generalizing vs with
  | nil => simp [hexVals] at h; subst h; rfl
  | cons x xs ih =>
    simp only [hexVals] at h
    split at h
    next v ws hv hw => cases h; simp [hexDigit_of_hexVal hv, ih hw]
    next => cases h

/-- Reading the text of a word gives the word. -/
theorem parseHex_hexText (c : Config) (p : Packed) (t : Vector Byte 64) (tlen : BitVec 8)
    (ht : t.toList = hexText p) (hl : tlen.toNat = 64) : parseHex c t tlen = some p := by
  have e : hexText p = ((List.range 64).map (nibble p)).map hexDigit := by simp [hexText, hexLen]
  rw [parseHex, if_pos (show tlen.toNat = hexLen from hl), ht, e, hexVals_map_hexDigit, Option.map_some, joinDigits_nibbles]

/-- What a text that reads says, and what it is written back as. -/
theorem parseHex_some {c : Config} {t : Vector Byte 64} {tlen : BitVec 8} {p : Packed}
    (h : parseHex c t tlen = some p) : hexText p = t.toList.map lowerCell := by
  unfold parseHex at h
  split at h
  · cases hv : hexVals c t.toList with
    | none => simp [hv] at h
    | some vs =>
      simp [hv] at h
      rw [← h, hexText_joinDigits vs (by simpa using hexVals_length hv), map_hexDigit_of_hexVals hv]
  · cases h

theorem parseHex_none (c : Config) (t : Vector Byte 64) (tlen : BitVec 8) :
    parseHex c t tlen = none ↔ (tlen.toNat ≠ 64 ∨ ∃ cell ∈ t.toList, hexVal c cell = none) := by
  unfold parseHex hexLen
  split <;> simp [*, hexVals_none]

end Sys2Proof.Machine
end

