-- ==== Sys2Proof/Laws/PerInstr.lean ====
section
/-! SUPPORT. The families of statements made per instruction (LAWS.json). TableRow: an instruction's word stands in its row of the operation map (spec/30_encoding.md R59). -/

namespace Sys2Proof.Laws.TableRow

/-- The encoded word, masked, is the row's `match`. -/
def Statement (i : Instr) : Prop := encode i &&& (tableRow i).mask = (tableRow i).pattern

/-- A word with a count: the mask of its row drops the count. -/
theorem masked (n : Nat) (pk : BitVec 1) (op : BitVec 4) :
    cmdOf n pk op &&& 0xE01F#16 = cmdOf 0 pk op := by
  rw [and_units_mask, cmdRsv_cmdOf, cmdPk_cmdOf, cmdOp_cmdOf]; rfl

theorem enc : Statement .enc := by unfold Statement; decide
theorem dec : Statement .dec := by unfold Statement; decide
theorem pack : Statement .pack := by unfold Statement; decide
theorem unpack : Statement .unpack := by unfold Statement; decide
theorem tohex : Statement .tohex := by unfold Statement; decide
theorem fromhex : Statement .fromhex := by unfold Statement; decide
theorem apply : Statement .apply := by unfold Statement; decide
theorem sub : Statement .sub := by unfold Statement; decide
theorem eq : Statement .eq := by unfold Statement; decide
theorem truncA (n : Nat) : Statement (.truncA n) := masked n _ _
theorem truncP (n : Nat) : Statement (.truncP n) := masked n _ _
theorem eqwA (n : Nat) : Statement (.eqwA n) := masked n _ _
theorem eqwP (n : Nat) : Statement (.eqwP n) := masked n _ _
theorem snapA (n : Nat) : Statement (.snapA n) := masked n _ _
theorem snapP (n : Nat) : Statement (.snapP n) := masked n _ _

end Sys2Proof.Laws.TableRow
end

