-- ==== Sys2Proof/Laws/State.lean ====
section
/-! SUPPORT. What each update of the state and each shape of result leaves in each field. -/

namespace Sys2Proof.Machine

@[simp] theorem deliver_cfg (r : Results) (s : State) : (s.deliver r).cfg = s.cfg := rfl
@[simp] theorem deliver_rst (r : Results) (s : State) : (s.deliver r).rst = s.rst := rfl
@[simp] theorem deliver_inp (r : Results) (s : State) : (s.deliver r).inp = s.inp := rfl
@[simp] theorem deliver_out (r : Results) (s : State) : (s.deliver r).out = r := rfl
@[simp] theorem deliver_deliver (r r' : Results) (s : State) : (s.deliver r).deliver r' = s.deliver r' := rfl

@[simp] theorem presentCommand_cfg (w : CmdWord) (s : State) : (presentCommand w s).cfg = s.cfg := rfl
@[simp] theorem presentCommand_rst (w : CmdWord) (s : State) : (presentCommand w s).rst = false := rfl
@[simp] theorem presentCommand_cmd (w : CmdWord) (s : State) : (presentCommand w s).inp.cmd = w := rfl
@[simp] theorem presentCommand_out (w : CmdWord) (s : State) : (presentCommand w s).out = s.out := rfl

@[simp] theorem finish_eq (r : Results) (s : State) : finish r s = .next (s.deliver r) := rfl
@[simp] theorem raise_eq (e : Status) (s : State) : raise e s = .next (s.deliver (Results.error e)) := rfl
@[simp] theorem raiseIllegal_eq (s : State) : raiseIllegal s = .next (s.deliver (Results.error .illegalCmd)) := rfl
@[simp] theorem holdInReset_eq (s : State) : holdInReset s = .next (s.deliver Results.absent) := rfl

@[simp] theorem absent_status : Results.absent.status = none := rfl
@[simp] theorem absent_ra : Results.absent.ra = none := rfl
@[simp] theorem absent_y : Results.absent.y = none := rfl
@[simp] theorem absent_rd : Results.absent.rd = none := rfl
@[simp] theorem absent_rp : Results.absent.rp = none := rfl
@[simp] theorem absent_rt : Results.absent.rt = none := rfl
@[simp] theorem absent_rtlen : Results.absent.rtlen = none := rfl
@[simp] theorem absent_rf : Results.absent.rf = none := rfl
@[simp] theorem presentPorts_absent : presentPorts Results.absent = [] := rfl

@[simp] theorem okAddress_status (a : Address) : (Results.okAddress a).status = some .ok := rfl
@[simp] theorem okAddress_ra (a : Address) : (Results.okAddress a).ra = some a := rfl
@[simp] theorem okAddress_y (a : Address) : (Results.okAddress a).y = none := rfl
@[simp] theorem okAddress_rd (a : Address) : (Results.okAddress a).rd = none := rfl
@[simp] theorem okAddress_rp (a : Address) : (Results.okAddress a).rp = none := rfl
@[simp] theorem okAddress_rt (a : Address) : (Results.okAddress a).rt = none := rfl
@[simp] theorem okAddress_rtlen (a : Address) : (Results.okAddress a).rtlen = none := rfl
@[simp] theorem okAddress_rf (a : Address) : (Results.okAddress a).rf = none := rfl
@[simp] theorem presentPorts_okAddress (a : Address) : presentPorts (Results.okAddress a) = [.ra] := rfl

@[simp] theorem okRaw_status (v : Raw) : (Results.okRaw v).status = some .ok := rfl
@[simp] theorem okRaw_ra (v : Raw) : (Results.okRaw v).ra = none := rfl
@[simp] theorem okRaw_y (v : Raw) : (Results.okRaw v).y = some v := rfl
@[simp] theorem okRaw_rd (v : Raw) : (Results.okRaw v).rd = none := rfl
@[simp] theorem okRaw_rp (v : Raw) : (Results.okRaw v).rp = none := rfl
@[simp] theorem okRaw_rt (v : Raw) : (Results.okRaw v).rt = none := rfl
@[simp] theorem okRaw_rtlen (v : Raw) : (Results.okRaw v).rtlen = none := rfl
@[simp] theorem okRaw_rf (v : Raw) : (Results.okRaw v).rf = none := rfl
@[simp] theorem presentPorts_okRaw (v : Raw) : presentPorts (Results.okRaw v) = [.y] := rfl

@[simp] theorem okDelta_status (d : Delta) : (Results.okDelta d).status = some .ok := rfl
@[simp] theorem okDelta_ra (d : Delta) : (Results.okDelta d).ra = none := rfl
@[simp] theorem okDelta_y (d : Delta) : (Results.okDelta d).y = none := rfl
@[simp] theorem okDelta_rd (d : Delta) : (Results.okDelta d).rd = some d := rfl
@[simp] theorem okDelta_rp (d : Delta) : (Results.okDelta d).rp = none := rfl
@[simp] theorem okDelta_rt (d : Delta) : (Results.okDelta d).rt = none := rfl
@[simp] theorem okDelta_rtlen (d : Delta) : (Results.okDelta d).rtlen = none := rfl
@[simp] theorem okDelta_rf (d : Delta) : (Results.okDelta d).rf = none := rfl
@[simp] theorem presentPorts_okDelta (d : Delta) : presentPorts (Results.okDelta d) = [.rd] := rfl

@[simp] theorem okPacked_status (w : Packed) : (Results.okPacked w).status = some .ok := rfl
@[simp] theorem okPacked_ra (w : Packed) : (Results.okPacked w).ra = none := rfl
@[simp] theorem okPacked_y (w : Packed) : (Results.okPacked w).y = none := rfl
@[simp] theorem okPacked_rd (w : Packed) : (Results.okPacked w).rd = none := rfl
@[simp] theorem okPacked_rp (w : Packed) : (Results.okPacked w).rp = some w := rfl
@[simp] theorem okPacked_rt (w : Packed) : (Results.okPacked w).rt = none := rfl
@[simp] theorem okPacked_rtlen (w : Packed) : (Results.okPacked w).rtlen = none := rfl
@[simp] theorem okPacked_rf (w : Packed) : (Results.okPacked w).rf = none := rfl
@[simp] theorem presentPorts_okPacked (w : Packed) : presentPorts (Results.okPacked w) = [.rp] := rfl

@[simp] theorem okText_status (c : List Byte) : (Results.okText c).status = some .ok := rfl
@[simp] theorem okText_ra (c : List Byte) : (Results.okText c).ra = none := rfl
@[simp] theorem okText_y (c : List Byte) : (Results.okText c).y = none := rfl
@[simp] theorem okText_rd (c : List Byte) : (Results.okText c).rd = none := rfl
@[simp] theorem okText_rp (c : List Byte) : (Results.okText c).rp = none := rfl
@[simp] theorem okText_rt (c : List Byte) : (Results.okText c).rt = some c := rfl
@[simp] theorem okText_rtlen (c : List Byte) : (Results.okText c).rtlen = some (BitVec.ofNat 8 c.length) := rfl
@[simp] theorem okText_rf (c : List Byte) : (Results.okText c).rf = none := rfl
@[simp] theorem presentPorts_okText (c : List Byte) : presentPorts (Results.okText c) = [.rt, .rtlen] := rfl

@[simp] theorem okFlag_status (f : Bool) : (Results.okFlag f).status = some .ok := rfl
@[simp] theorem okFlag_ra (f : Bool) : (Results.okFlag f).ra = none := rfl
@[simp] theorem okFlag_y (f : Bool) : (Results.okFlag f).y = none := rfl
@[simp] theorem okFlag_rd (f : Bool) : (Results.okFlag f).rd = none := rfl
@[simp] theorem okFlag_rp (f : Bool) : (Results.okFlag f).rp = none := rfl
@[simp] theorem okFlag_rt (f : Bool) : (Results.okFlag f).rt = none := rfl
@[simp] theorem okFlag_rtlen (f : Bool) : (Results.okFlag f).rtlen = none := rfl
@[simp] theorem okFlag_rf (f : Bool) : (Results.okFlag f).rf = some f := rfl
@[simp] theorem presentPorts_okFlag (f : Bool) : presentPorts (Results.okFlag f) = [.rf] := rfl

@[simp] theorem error_status (e : Status) : (Results.error e).status = some e := rfl
@[simp] theorem error_ra (e : Status) : (Results.error e).ra = none := rfl
@[simp] theorem error_y (e : Status) : (Results.error e).y = none := rfl
@[simp] theorem error_rd (e : Status) : (Results.error e).rd = none := rfl
@[simp] theorem error_rp (e : Status) : (Results.error e).rp = none := rfl
@[simp] theorem error_rt (e : Status) : (Results.error e).rt = none := rfl
@[simp] theorem error_rtlen (e : Status) : (Results.error e).rtlen = none := rfl
@[simp] theorem error_rf (e : Status) : (Results.error e).rf = none := rfl
@[simp] theorem presentPorts_error (e : Status) : presentPorts (Results.error e) = [] := rfl

end Sys2Proof.Machine
end

