-- ==== Sys2Proof/Laws/Step.lean ====
section
/-! SUPPORT. What exec and step can do, said once: every operation ends by delivering one set of results, which depends on the parameters and the operand ports alone (spec/10_state.md R20, R26). -/

namespace Sys2Proof.Machine

/-- The results of an operation that checks its count first (spec/42_comparator.md R141). -/
def unitsResults (n : Nat) (r : Results) : Results :=
  if n ≤ 51 then r else Results.error .precisionRange

/-- The results each operation delivers. -/
def opResults (c : Config) (o : Operands) : Instr → Results
  | .enc => Results.okAddress ⟨o.x.frameId, o.x.radius, o.x.latMicro, o.x.lonMicro⟩
  | .dec => Results.okRaw ⟨o.a.frame, o.a.radius, o.a.lat, o.a.lon⟩
  | .pack => Results.okPacked (pack c o.a)
  | .unpack => Results.okAddress (unpack c o.p)
  | .tohex => Results.okText (hexText (pack c o.a))
  | .fromhex =>
    match parseHex c o.t o.tlen with
    | some w => Results.okAddress (unpack c w)
    | none => Results.error .parseError
  | .apply => Results.okAddress (applyDelta c o.a o.d)
  | .sub =>
    if o.a.frame = o.b.frame then Results.okDelta (addressDiff o.a o.b) else Results.error .crossFrame
  | .eq => Results.okFlag (exactEqual o.a o.b)
  | .truncA n => unitsResults n (Results.okPacked (truncWord (pack c o.a) n))
  | .truncP n => unitsResults n (Results.okPacked (truncWord o.p n))
  | .eqwA n => unitsResults n (Results.okFlag (equalWithin (pack c o.a) (pack c o.b) n))
  | .eqwP n => unitsResults n (Results.okFlag (equalWithin o.p o.q n))
  | .snapA n => unitsResults n (Results.okText (snapText c (pack c o.a) n))
  | .snapP n => unitsResults n (Results.okText (snapText c o.p n))

/-- The results of a step. -/
def stepResults (s : State) : Results :=
  if s.rst then Results.absent
  else
    match decode s.inp.cmd with
    | .ok i => opResults s.cfg s.inp i
    | .error _ => Results.error .illegalCmd

theorem withUnits_eq (n : Nat) (r : Results) (s : State) :
    withUnits n r s = .next (s.deliver (unitsResults n r)) := by
  unfold withUnits unitsInRange unitsResults maxUnits
  by_cases h : n ≤ 51 <;> simp [h]

theorem unitsResults_in {n : Nat} (h : n ≤ 51) (r : Results) : unitsResults n r = r := if_pos h

theorem unitsResults_out {n : Nat} (h : 52 ≤ n) (r : Results) :
    unitsResults n r = Results.error .precisionRange := if_neg (by omega)

theorem execFromhex_eq (s : State) :
    execFromhex s = .next (s.deliver (opResults s.cfg s.inp .fromhex)) := by
  unfold execFromhex opResults wordOfText
  split <;> simp [*]

theorem execSub_eq (s : State) : execSub s = .next (s.deliver (opResults s.cfg s.inp .sub)) := by
  unfold execSub opResults sameFrame
  by_cases h : s.inp.a.frame = s.inp.b.frame <;> simp [h]

/-- Every operation delivers its results and does nothing else. -/
theorem exec_eq (i : Instr) (s : State) : exec i s = .next (s.deliver (opResults s.cfg s.inp i)) := by
  cases i with
  | enc => rfl
  | dec => rfl
  | pack => rfl
  | unpack => rfl
  | tohex => rfl
  | fromhex => exact execFromhex_eq s
  | apply => rfl
  | sub => exact execSub_eq s
  | eq => rfl
  | truncA n => exact withUnits_eq n _ s
  | truncP n => exact withUnits_eq n _ s
  | eqwA n => exact withUnits_eq n _ s
  | eqwP n => exact withUnits_eq n _ s
  | snapA n => exact withUnits_eq n _ s
  | snapP n => exact withUnits_eq n _ s

/-- A next state of an operation is the old state with its results. -/
theorem exec_next {i : Instr} {s t : State} (h : exec i s = .next t) :
    t = s.deliver (opResults s.cfg s.inp i) := by
  rw [exec_eq] at h; exact (Host.Outcome.next.inj h).symm

/-- Every step delivers its results and does nothing else. -/
theorem step_eq (s : State) : step s = .next (s.deliver (stepResults s)) := by
  unfold step stepResults fetchCommand
  by_cases h : s.rst
  · simp [h]
  · simp only [h, Bool.false_eq_true, if_false]
    split <;> simp [exec_eq, *]

theorem step_next {s t : State} (h : step s = .next t) : t = s.deliver (stepResults s) := by
  rw [step_eq] at h; exact (Host.Outcome.next.inj h).symm

/-- The results of a step do not depend on what stood on the result ports. -/
theorem stepResults_congr {s s' : State} (hc : s.cfg = s'.cfg) (hr : s.rst = s'.rst) (hi : s.inp = s'.inp) :
    stepResults s = stepResults s' := by simp [stepResults, hc, hr, hi]

/-- A step as the host sees it. -/
theorem takeStep_eq (s : State) :
    takeStep s = (s.deliver (stepResults s), if s.rst then [] else [stepResults s]) := by
  simp [takeStep, step_eq, received]

end Sys2Proof.Machine
end

