-- ==== Sys2Proof/Laws/Truncation.lean ====
section
/-! SUPPORT. Truncation to a count of units, and the comparisons made with it (spec/42_comparator.md R136, R140, R147). -/

namespace Sys2Proof.Machine

/-- The mask is the ones from bit `256 - 5n` up (spec/42_comparator.md R140). -/
theorem unitMask_eq (n : Nat) :
    2 ^ 256 - 2 ^ (256 - bitsPerUnit * n) = (2 ^ (256 - (256 - 5 * n)) - 1) <<< (256 - 5 * n) := by
  have h : 256 - (256 - 5 * n) + (256 - 5 * n) = 256 := by omega
  have e : (2 : Nat) ^ 256 = 2 ^ (256 - (256 - 5 * n)) * 2 ^ (256 - 5 * n) := by rw [← Nat.pow_add, h]
  rw [Nat.shiftLeft_eq, Nat.sub_mul, ← e, Nat.one_mul, bitsPerUnit]

theorem unitMask_bit (n k : Nat) (hk : k < 256) : (unitMask n).getLsbD k = decide (256 - 5 * n ≤ k) := by
  rw [unitMask, BitVec.getLsbD_ofNat, unitMask_eq, Nat.testBit_shiftLeft, Nat.testBit_two_pow_sub_one]
  simp only [hk, decide_true, Bool.true_and, ge_iff_le]
  by_cases h : 256 - 5 * n ≤ k
  · simp only [h, decide_true, Bool.true_and, decide_eq_true_eq]; omega
  · simp [h]

/-- The bits of a truncated word. -/
theorem truncWord_bit (p : Packed) (n k : Nat) (hk : k < 256) :
    (truncWord p n).getLsbD k = (decide (256 - 5 * n ≤ k) && p.getLsbD k) := by
  rw [truncWord, BitVec.getLsbD_and, unitMask_bit n k hk, Bool.and_comm]

/-- The value of a truncated word. -/
theorem truncWord_toNat (p : Packed) (n : Nat) :
    (truncWord p n).toNat = p.toNat / 2 ^ (256 - 5 * n) * 2 ^ (256 - 5 * n) := by
  apply Nat.eq_of_testBit_eq
  intro k
  rw [← Nat.shiftRight_eq_div_pow, ← Nat.shiftLeft_eq, Nat.testBit_shiftLeft, Nat.testBit_shiftRight]
  by_cases hk : k < 256
  · have := truncWord_bit p n k hk
    simp only [BitVec.getLsbD] at this
    rw [this]
    by_cases h : 256 - 5 * n ≤ k
    · simp [h]
    · simp [h]
  · have h1 : (truncWord p n).toNat.testBit k = false := BitVec.getLsbD_of_ge _ _ (by omega)
    have h2 : p.toNat.testBit k = false := BitVec.getLsbD_of_ge _ _ (by omega)
    rw [h1]
    by_cases h : 256 - 5 * n ≤ k
    · simp [h, h2]
    · simp [h]

/-- Two truncations agree exactly when the kept bits do (spec/42_comparator.md R148). -/
theorem truncWord_eq_iff (p q : Packed) (n : Nat) :
    truncWord p n = truncWord q n ↔ ∀ k, k < 256 → 256 - 5 * n ≤ k → p.getLsbD k = q.getLsbD k := by
  constructor
  · intro h k hk hn
    have e : (truncWord p n).getLsbD k = (truncWord q n).getLsbD k := by rw [h]
    rw [truncWord_bit p n k hk, truncWord_bit q n k hk, decide_eq_true hn, Bool.true_and, Bool.true_and] at e
    exact e
  · intro h
    apply BitVec.eq_of_getLsbD_eq
    intro k hk
    rw [truncWord_bit p n k hk, truncWord_bit q n k hk]
    by_cases hn : 256 - 5 * n ≤ k
    · rw [h k hk hn]
    · simp [hn]

/-- The same by value: the quotients agree. -/
theorem truncWord_eq_iff_div (p q : Packed) (n : Nat) :
    truncWord p n = truncWord q n ↔ p.toNat / 2 ^ (256 - 5 * n) = q.toNat / 2 ^ (256 - 5 * n) := by
  rw [BitVec.toNat_eq, truncWord_toNat, truncWord_toNat]
  exact ⟨Nat.eq_of_mul_eq_mul_right (by positivity), fun h => by rw [h]⟩

/-- Truncating twice keeps what the smaller count keeps (spec/42_comparator.md R144). -/
theorem truncWord_truncWord (p : Packed) (n1 n2 : Nat) :
    truncWord (truncWord p n2) n1 = truncWord p (min n1 n2) := by
  apply BitVec.eq_of_getLsbD_eq
  intro k hk
  rw [truncWord_bit _ n1 k hk, truncWord_bit _ n2 k hk, truncWord_bit _ _ k hk, ← Bool.and_assoc]
  congr 1
  rw [← Bool.decide_and, decide_eq_decide]
  omega

theorem equalWithin_iff (p q : Packed) (n : Nat) : equalWithin p q n = true ↔ truncWord p n = truncWord q n := by
  simp [equalWithin]

/-- EQ compares the Addresses (spec/42_comparator.md R136). -/
theorem exactEqual_iff (a b : Address) : exactEqual a b = true ↔ a = b := by
  simp only [exactEqual, Bool.and_eq_true, beq_iff_eq]
  exact ⟨fun h => Address_ext h.1.1.1 h.1.1.2 h.1.2 h.2, fun h => by subst h; simp⟩

/-- A word and its text determine each other. -/
theorem hexText_inj {p q : Packed} (h : hexText p = hexText q) : p = q := by
  apply eq_of_nibbles
  intro i hi
  have e := congrArg (fun l : List Byte => l[i]?) h
  simp only [hexText_getElem? _ i hi, Option.some.injEq] at e
  have inj : ∀ v w : BitVec 4, hexDigit v = hexDigit w → v = w := by decide
  exact inj _ _ e

@[simp] theorem snapText_length (c : Config) (p : Packed) (n : Nat) :
    (snapText c p n).length = c.snapTag.length + 64 := by simp [snapText]

end Sys2Proof.Machine
end

