-- ==== Sys2Proof/Tests/Slice0.lean ====
section
/-! SUPPORT. The model's own tests. The expected values are those of spec/95_test_vectors.md (named V and S and P as there), of spec/30_encoding.md R59 and R64, and of the examples in the rules; the `witness` theorems give operands that meet the hypotheses of the statement they are named after. -/

namespace Sys2Proof.Tests

open Sys2Proof Sys2Proof.Machine

/-! Helpers. -/

/-- The default build of 00_scope.md R10 with a tag of two bytes; the tag is the test's own. -/
def biasCfg : Config := ⟨.bias, .saturate, .accept, [0x75, 0x3A]⟩

/-- The other value of each parameter. -/
def bitcastCfg : Config := ⟨.bitcast, .wrap, .reject, []⟩

def at' (c : Config) (o : Operands) : State := { cfg := c, rst := false, inp := o, out := Results.absent }

def addr (frame radius : Nat) (lat lon : Int) : Address :=
  ⟨BitVec.ofNat 64 frame, BitVec.ofNat 64 radius, BitVec.ofInt 64 lat, BitVec.ofInt 64 lon⟩

def delta (dr dlat dlon : Int) : Delta := ⟨BitVec.ofInt 128 dr, BitVec.ofInt 128 dlat, BitVec.ofInt 128 dlon⟩

def onA (a : Address) : Operands := { Operands.zero with a := a }
def onAB (a b : Address) : Operands := { Operands.zero with a := a, b := b }
def onAD (a : Address) (d : Delta) : Operands := { Operands.zero with a := a, d := d }
def onP (p : Packed) : Operands := { Operands.zero with p := p }
def onPQ (p q : Packed) : Operands := { Operands.zero with p := p, q := q }

def cells (text : String) : List Byte := text.toList.map fun c => BitVec.ofNat 8 c.toNat
def onText (text : String) : Operands := presentText (cells text) Operands.zero

/-- The operands with a command word. -/
def withCmd (w : CmdWord) (o : Operands) : Operands := { o with cmd := w }

/-- The results of a next state. -/
def results (x : Outcome) : Option Results :=
  match x with
  | .next t => some t.out
  | .fault _ => none
  | .refused _ => none

/-- `W` of 95_test_vectors.md. -/
def vectorW : Packed := 0x0123456789ABCDEFFEDCBA98765432100F1E2D3C4B5A69788796A5B4C3D2E1F0

/-! WellFormed. -/

theorem test_wellformed_refuses_truncA : WellFormed (.truncA 256) = false := by decide
theorem test_wellformed_refuses_truncP : WellFormed (.truncP 256) = false := by decide
theorem test_wellformed_refuses_eqwA : WellFormed (.eqwA 256) = false := by decide
theorem test_wellformed_refuses_eqwP : WellFormed (.eqwP 256) = false := by decide
theorem test_wellformed_refuses_snapA : WellFormed (.snapA 256) = false := by decide
theorem test_wellformed_refuses_snapP : WellFormed (.snapP 256) = false := by decide
theorem test_wellformed_takes_255 : WellFormed (.snapP 255) = true := by decide

/-! Decoding. Each word is copied from the pattern column of 30_encoding.md R59: rsv, n, pk, op. -/

theorem test_decode_enc : decode 0b000_00000000_0_0001 = .ok .enc := by rfl
theorem test_decode_dec : decode 0b000_00000000_0_0010 = .ok .dec := by rfl
theorem test_decode_pack : decode 0b000_00000000_0_0011 = .ok .pack := by rfl
theorem test_decode_unpack : decode 0b000_00000000_0_0100 = .ok .unpack := by rfl
theorem test_decode_tohex : decode 0b000_00000000_0_0101 = .ok .tohex := by rfl
theorem test_decode_fromhex : decode 0b000_00000000_0_0110 = .ok .fromhex := by rfl
theorem test_decode_apply : decode 0b000_00000000_0_0111 = .ok .apply := by rfl
theorem test_decode_sub : decode 0b000_00000000_0_1000 = .ok .sub := by rfl
theorem test_decode_eq : decode 0b000_00000000_0_1001 = .ok .eq := by rfl
theorem test_decode_truncA : decode 0b000_00001101_0_1010 = .ok (.truncA 13) := by rfl
theorem test_decode_truncP : decode 0b000_00110100_1_1010 = .ok (.truncP 52) := by rfl
theorem test_decode_eqwA : decode 0b000_00011001_0_1011 = .ok (.eqwA 25) := by rfl
theorem test_decode_eqwP : decode 0b000_11111111_1_1011 = .ok (.eqwP 255) := by rfl
theorem test_decode_snapA : decode 0b000_00011000_0_1100 = .ok (.snapA 24) := by rfl
theorem test_decode_snapP : decode 0b000_00000001_1_1100 = .ok (.snapP 1) := by rfl

/-- 95_test_vectors.md V140 to V143: no operation. -/
theorem test_illegal_no_operation :
    decode 0x0000 = .error .noOperation ∧ decode 0x000D = .error .noOperation ∧
    decode 0x000E = .error .noOperation ∧ decode 0x000F = .error .noOperation ∧
    decode 0xFFFF = .error .reservedBits := ⟨rfl, rfl, rfl, rfl, rfl⟩

/-- V144 to V150: reserved bits, and fields the operation does not use. -/
theorem test_illegal_fields :
    decode 0x2001 = .error .reservedBits ∧ decode 0x8007 = .error .reservedBits ∧
    decode 0x0021 = .error .unusedField ∧ decode 0x0011 = .error .unusedField ∧
    decode 0x0027 = .error .unusedField ∧ decode 0x0019 = .error .unusedField ∧
    decode 0x3FEA = .error .reservedBits := ⟨rfl, rfl, rfl, rfl, rfl, rfl, rfl⟩

/-- V151 to V154, and the host's numbering of a word's bits. -/
theorem test_decode_table_words :
    decodeTableWord 16 0x1FEA = some (.truncA 255) ∧ decodeTableWord 16 0x068A = some (.truncA 52) ∧
    decodeTableWord 16 0x066A = some (.truncA 51) ∧ decodeTableWord 16 0x0007 = some .apply ∧
    decodeTableWord 16 0x000D = none := by decide

/-- 30_encoding.md R72: `TRUNC.A 13` is the head of the line for the word 0x01AA. -/
theorem test_asm_head : asmHead (.truncA 13) = "TRUNC.A 13" ∧ encode (.truncA 13) = 0x01AA := by decide

/-! The Coordinate Codec. -/

/-- S2: a code outside the valid range is copied too. -/
theorem test_enc : (results (exec .enc (at' biasCfg { Operands.zero with
    x := ⟨7, 5, BitVec.ofInt 64 9223372036854775807, BitVec.ofInt 64 (-9223372036854775808)⟩ }))).bind (·.ra) =
    some (addr 7 5 9223372036854775807 (-9223372036854775808)) := by decide

/-- The example of R84. -/
theorem test_dec : (results (exec .dec (at' biasCfg (onA (addr 0 1000100 50 (-50)))))).bind (·.y) =
    some ⟨0, 1000100, 50, BitVec.ofInt 64 (-50)⟩ := by decide

/-- V3 and V4. -/
theorem test_pack : (results (exec .pack (at' biasCfg (onA (addr 0 1000100 50 (-50)))))).bind (·.rp) =
      some 0x000000000000000000000000000F42A400000000055D4AB2000000000ABA94CE ∧
    (results (exec .pack (at' bitcastCfg (onA (addr 0 1000100 50 (-50)))))).bind (·.rp) =
      some 0x000000000000000000000000000F42A40000000000000032FFFFFFFFFFFFFFCE := by decide

/-- V7: one below the range, the bias wraps. -/
theorem test_pack_wraps : (results (exec .pack (at' biasCfg (onA (addr 0 0 (-90000001) 0))))).bind (·.rp) =
    some 0x00000000000000000000000000000000FFFFFFFFFFFFFFFF000000000ABA9500 := by decide

/-- V11, both conventions. -/
theorem test_unpack : (results (exec .unpack (at' biasCfg (onP (BitVec.allOnes 256))))).bind (·.ra) =
      some (addr 18446744073709551615 18446744073709551615 (-90000001) (-180000001)) ∧
    (results (exec .unpack (at' bitcastCfg (onP (BitVec.allOnes 256))))).bind (·.ra) =
      some (addr 18446744073709551615 18446744073709551615 (-1) (-1)) := by decide

/-- V12: the fields are told apart. -/
theorem test_unpack_fields : (results (exec .unpack (at' biasCfg
    (onP 0x00000000000000070000000000000005000000000ABA950000000000157529FF)))).bind (·.ra) =
    some (addr 7 5 90000000 179999999) := by decide

/-- V17. -/
theorem test_tohex : (results (exec .tohex (at' biasCfg (onA (addr 5 7 10 20))))).map (fun r => (r.rt, r.rtlen)) =
    some (some (cells "0000000000000005000000000000000700000000055d4a8a000000000aba9514"), some 64) := by
  decide

/-- V20: upper case, accepted and rejected. -/
theorem test_fromhex : (results (exec .fromhex (at' biasCfg
      (onText "000000000000000000000000000F42A400000000055D4AB2000000000ABA94CE")))).bind (·.ra) =
      some (addr 0 1000100 50 (-50)) ∧
    results (exec .fromhex (at' bitcastCfg
      (onText "000000000000000000000000000F42A400000000055D4AB2000000000ABA94CE"))) =
      some (Results.error .parseError) := by decide

/-- V21, V24, V25: a short text, a long one, a last cell that is no digit. -/
theorem test_fromhex_refuses :
    results (exec .fromhex (at' biasCfg (onText "00ff"))) = some (Results.error .parseError) ∧
    results (exec .fromhex (at' biasCfg
      (onText "00000000000000000000000000000000000000000000000000000000000000000"))) =
      some (Results.error .parseError) ∧
    results (exec .fromhex (at' biasCfg
      (onText "000000000000000000000000000000000000000000000000000000000000000g"))) =
      some (Results.error .parseError) := by decide

/-- 30_encoding.md R64, the rows of -50 and of -180 000 000. -/
theorem test_field_values :
    latField biasCfg (BitVec.ofInt 64 (-50)) = 0x00000000055D4A4E ∧
    lonField biasCfg (BitVec.ofInt 64 (-50)) = 0x000000000ABA94CE ∧
    lonField bitcastCfg (BitVec.ofInt 64 (-50)) = 0xFFFFFFFFFFFFFFCE ∧
    latField biasCfg (BitVec.ofInt 64 (-180000000)) = 0xFFFFFFFFFAA2B580 ∧
    lonField biasCfg (BitVec.ofInt 64 (-180000000)) = 0 := by decide

/-! The Delta Arithmetic. -/

/-- S1, the document's own example, through a whole step. -/
theorem test_apply_scenario : results (step (at' biasCfg
    (withCmd 0x0007 (onAD (addr 0 1000000 0 0) (delta 100 50 (-50)))))) =
    some (Results.okAddress (addr 0 1000100 50 (-50))) := by decide

/-- V65: both signs of the largest Delta. -/
theorem test_apply_largest_delta :
    normalise 170141183460469231731687303715884105727 (-170141183460469231731687303715884105728) =
      (-24105727, -24105728) := rfl

/-- V64 under either `RADIUS_HIGH`. -/
theorem test_radius_high :
    applyRadius biasCfg (BitVec.allOnes 64) 2 = BitVec.allOnes 64 ∧
    applyRadius bitcastCfg (BitVec.allOnes 64) 2 = 1 := by decide

/-- V47 and V53: the cases a north loop followed by a south loop would get wrong; their turns by the loop itself. -/
theorem test_normalise : normalise 500000000 0 = (40000000, -180000000) ∧
    normalise (-300000000) 0 = (60000000, 0) ∧ crossings 500000000 = 3 ∧
    normaliseByLoop 3 500000000 0 = (40000000, -180000000) := by decide

/-- V61 and the row of R207: remainders of negative numbers. -/
theorem test_euclidean : normalise 9223372036854775807 (-9223372036854775808) = (54775807, -54775808) ∧
    emod (-1) 360000000 = 359999999 ∧ emod (-360000000) 360000000 = 0 := by decide

/-- V74. -/
theorem test_sub : (results (exec .sub (at' biasCfg
    (onAB (addr 0 0 0 0) (addr 0 18446744073709551615 0 0))))).bind (·.rd) =
    some ⟨0xFFFFFFFFFFFFFFFF0000000000000001, 0, 0⟩ := by decide

/-- V76: the frames differ in the top bit only. -/
theorem test_sub_cross_frame : results (exec .sub (at' biasCfg
    (onAB (addr 9223372036854775808 0 0 0) (addr 0 0 0 0)))) = some (Results.error .crossFrame) := by decide

/-! The Tolerance Comparator. -/

/-- V81 and V80. -/
theorem test_eq : results (exec .eq (at' biasCfg (onAB (addr 5 7 10 20) (addr 5 7 10 21)))) =
      some (Results.okFlag false) ∧
    results (exec .eq (at' biasCfg (onAB (addr 5 7 10 20) (addr 5 7 10 20)))) =
      some (Results.okFlag true) := by decide

/-- V108 and V111. -/
theorem test_truncA : (results (exec (.truncA 25) (at' biasCfg (onA (addr 0 1000100 50 (-50)))))).bind (·.rp) =
      some 0x000000000000000000000000000F42A000000000000000000000000000000000 ∧
    (results (exec (.truncA 51) (at' biasCfg (onA (addr 5 7 10 21))))).bind (·.rp) =
      some 0x0000000000000005000000000000000700000000055D4A8A000000000ABA9514 := by decide

/-- V95, V90 and V104. -/
theorem test_truncP : (results (exec (.truncP 13) (at' biasCfg (onP vectorW)))).bind (·.rp) =
      some 0x0123456789ABCDEF800000000000000000000000000000000000000000000000 ∧
    (results (exec (.truncP 0) (at' biasCfg (onP vectorW)))).bind (·.rp) = some 0 ∧
    results (exec (.truncP 52) (at' biasCfg (onP vectorW))) = some (Results.error .precisionRange) := by
  decide

/-- V125: the latitudes -1 and 0 part at 37 units under BIAS, at 26 under BITCAST. -/
theorem test_eqwA : (results (exec (.eqwA 36) (at' biasCfg (onAB (addr 0 10 (-1) 0) (addr 0 10 0 0))))).bind (·.rf) = some true ∧
    (results (exec (.eqwA 37) (at' biasCfg (onAB (addr 0 10 (-1) 0) (addr 0 10 0 0))))).bind (·.rf) = some false ∧
    (results (exec (.eqwA 26) (at' bitcastCfg (onAB (addr 0 10 (-1) 0) (addr 0 10 0 0))))).bind (·.rf) = some false := by
  decide

/-- The single transactions of EQW.P: `W` against `W + 1`, `W + 2`, and a count of 255. -/
theorem test_eqwP : (results (exec (.eqwP 51) (at' biasCfg (onPQ vectorW (vectorW + 1))))).bind (·.rf) = some true ∧
    (results (exec (.eqwP 51) (at' biasCfg (onPQ vectorW (vectorW + 2))))).bind (·.rf) = some false ∧
    results (exec (.eqwP 255) (at' biasCfg (onPQ 0 0))) = some (Results.error .precisionRange) := by decide

/-- The first example of SNAP, under the tag of `biasCfg` (`"u:"`). -/
theorem test_snapA : (results (exec (.snapA 25) (at' biasCfg (onA (addr 0 1000100 50 (-50)))))).map
      (fun r => (r.rt, r.rtlen)) =
    some (some (cells "u:000000000000000000000000000f42a000000000000000000000000000000000"), some 66) := by
  decide

/-- The example of R154, under an empty tag. -/
theorem test_snapP : (results (exec (.snapP 1) (at' bitcastCfg (onP (BitVec.allOnes 256))))).map
      (fun r => (r.rt, r.rtlen)) =
    some (some (cells "f800000000000000000000000000000000000000000000000000000000000000"), some 64) := by
  decide

/-! Steps. -/

/-- V150: decoding comes first, and no other port is driven. -/
theorem test_step_illegal : results (step (at' biasCfg (withCmd 0x3FEA Operands.zero))) =
    some (Results.error .illegalCmd) := by decide

/-- 70_reset_and_hazards.md R185: nothing while reset is asserted, whatever was delivered before. -/
theorem test_step_in_reset : results (step { at' biasCfg (withCmd 0x0001 Operands.zero) with
    rst := true, out := Results.okFlag true }) = some Results.absent := by decide

/-- 60_exceptions.md R161: the code of each outcome. -/
theorem test_status_codes : statusCode .ok = 0 ∧ statusCode .parseError = 1 ∧ statusCode .precisionRange = 2 ∧
    statusCode .crossFrame = 3 ∧ statusCode .illegalCmd = 4 := by decide

/-- A placed word runs as the very next step, also from the state after reset. -/
theorem test_fetch_word : step (State.reset.withFetchWord 16 0x0009) =
    .next (State.deliver (Results.okFlag true) (State.reset.withFetchWord 16 0x0009)) := rfl

/-! Witnesses: operands that meet the hypotheses of each statement together, each clause at a boundary of its range. -/

theorem witness_DecodeOfEncodeIsTheInstruction : WellFormed (.snapA 0) = true ∧ WellFormed (.eqwP 255) = true := by decide

theorem witness_EncodeOfDecodeIsTheWord : decode 0x1FFC = .ok (.snapP 255) := rfl

theorem witness_WordSelectsItsRowByMaskAndMatch :
    (0x1FFB : CmdWord) &&& (tableRow (.eqwP 255)).mask = (tableRow (.eqwP 255)).pattern ∧
    (0x1FFB : CmdWord) &&& (tableRow (.eqwP 0)).mask = (tableRow (.eqwP 0)).pattern := by decide

theorem witness_IllegalWordsAreTheListedOnes :
    (at' biasCfg (withCmd 0x2001 Operands.zero)).rst = false ∧
    decode (at' biasCfg (withCmd 0x2001 Operands.zero)).inp.cmd = .error .reservedBits := ⟨rfl, rfl⟩

/-- The least and the greatest count out of range, in the first and the last operation with a count. -/
theorem witness_IllegalWordsAreTheListedOnes_count :
    ([0x068A, 0x1FFC] : List CmdWord).all (fun w => decide (w.toNat / 8192 = 0) && decide (0xA ≤ w.toNat % 16) &&
      decide (w.toNat % 16 ≤ 0xC) && decide (52 ≤ w.toNat / 32 % 256)) = true := rfl

theorem witness_StepPerformsTheCommandOnThePorts :
    (at' biasCfg (withCmd 0x0009 Operands.zero)).rst = false ∧
    decode (at' biasCfg (withCmd 0x0009 Operands.zero)).inp.cmd = .ok .eq := ⟨rfl, rfl⟩

theorem witness_ResetAssertedDrivesNothing :
    { at' biasCfg (withCmd 0x0009 Operands.zero) with rst := true }.rst = true := rfl

theorem witness_EveryTransactionCompletes : (at' biasCfg Operands.zero).rst = false := rfl

/-- Two states that differ in what an earlier transaction left on the result ports. -/
theorem witness_ResultsAreAFunctionOfTheTransaction :
    let s1 := at' biasCfg (withCmd 0x0009 Operands.zero)
    let s2 := { s1 with out := Results.okPacked 1 }
    s1.cfg = s2.cfg ∧ s1.rst = false ∧ s2.rst = false ∧ s1.inp = s2.inp ∧ s1 ≠ s2 ∧
      (∃ t1, step s1 = .next t1) ∧ ∃ t2, step s2 = .next t2 :=
  ⟨rfl, rfl, rfl, rfl, by decide, ⟨_, step_eq _⟩, ⟨_, step_eq _⟩⟩

theorem witness_OnlyTheResultPortsChange :
    (∃ t, step (at' biasCfg (withCmd 0x0005 (onA (addr 5 7 10 20)))) = .next t) ∧
    ∃ t, exec .tohex (at' biasCfg (onA (addr 5 7 10 20))) = .next t := ⟨⟨_, step_eq _⟩, ⟨_, exec_eq _ _⟩⟩

theorem witness_StepIsIdempotent : ∃ t, step (at' biasCfg (withCmd 0x0009 Operands.zero)) = .next t := ⟨_, step_eq _⟩

/-- With the longest tag a block can have, and a flag on the result ports. -/
theorem witness_EveryStepKeepsTheInvariant :
    let s := { at' { biasCfg with snapTag := List.replicate 191 0x75 } (withCmd 0x000C Operands.zero) with
      out := Results.okFlag true }
    inv s = true ∧ ∃ t, step s = .next t := 
  ⟨by rw [inv, show Config.wf _ = true from decide_eq_true (Nat.le_of_eq List.length_replicate)]; rfl, ⟨_, step_eq _⟩⟩

/-- One transaction for each of the five codes. -/
theorem witness_StatusSaysWhichErrorHappened :
    (∃ t, step (at' biasCfg (withCmd 0x0009 Operands.zero)) = .next t ∧ statusPort t = some 0) ∧
    (∃ t, step (at' biasCfg (withCmd 0x0006 { Operands.zero with tlen := 63 })) = .next t ∧ statusPort t = some 1) ∧
    (∃ t, step (at' biasCfg (withCmd 0x068A Operands.zero)) = .next t ∧ statusPort t = some 2) ∧
    (∃ t, step (at' biasCfg (withCmd 0x0008 (onAB (addr 0 1 2 3) (addr 1 1 2 3)))) = .next t ∧ statusPort t = some 3) ∧
    (∃ t, step (at' biasCfg (withCmd 0x000D Operands.zero)) = .next t ∧ statusPort t = some 4) :=
  ⟨⟨_, step_eq _, rfl⟩, ⟨_, step_eq _, rfl⟩, ⟨_, step_eq _, rfl⟩, ⟨_, step_eq _, rfl⟩, ⟨_, step_eq _, rfl⟩⟩

theorem witness_ErrorsLeaveOnlyTheStatus :
    ∃ t, step (at' biasCfg (withCmd 0x069A Operands.zero)) = .next t ∧ t.out.status = some .precisionRange ∧
      Status.precisionRange ≠ .ok := ⟨_, step_eq _, rfl, by decide⟩

/-- States that agree on the ports SUB reads and on no other; an OK; an error; an illegal word. -/
theorem witness_EachOperationUsesThePortsOfItsRow :
    (let s1 := at' biasCfg (onAB (addr 0 1 2 3) (addr 0 0 0 0))
     let s2 := at' biasCfg { onAB (addr 0 1 2 3) (addr 0 0 0 0) with p := 1, q := 1, tlen := 1, d := delta 1 1 1 }
     s1.cfg = s2.cfg ∧ (∀ port ∈ readPorts .sub, agreeOn s1.inp s2.inp port) ∧
       (∃ t1, exec .sub s1 = .next t1 ∧ t1.out.status = some .ok) ∧ ∃ t2, exec .sub s2 = .next t2) ∧
    (∃ t, exec (.truncP 52) (at' biasCfg Operands.zero) = .next t ∧ t.out.status = some .precisionRange) ∧
    decode (at' biasCfg (withCmd 0x0021 Operands.zero)).inp.cmd = .error .unusedField :=
  ⟨⟨rfl, by simp [readPorts, agreeOn, at', onAB], ⟨_, exec_eq _ _, rfl⟩, ⟨_, exec_eq _ _⟩⟩, ⟨_, exec_eq _ _, rfl⟩, rfl⟩

theorem witness_EncAndDecRoundTrip :
    (∃ t1, exec .enc (at' biasCfg { Operands.zero with x := ⟨7, 5, 90, 91⟩ }) = .next t1 ∧
      t1.out.ra = some (at' biasCfg (onA ⟨7, 5, 90, 91⟩)).inp.a) ∧
    (∃ t1, exec .dec (at' biasCfg (onA ⟨7, 5, 90, 91⟩)) = .next t1 ∧
      t1.out.y = some (at' biasCfg { Operands.zero with x := ⟨7, 5, 90, 91⟩ }).inp.x) := ⟨⟨_, exec_eq _ _, rfl⟩, ⟨_, exec_eq _ _, rfl⟩⟩

theorem witness_PackLaysOutTheFields : biasCfg.signConv = .bias ∧ bitcastCfg.signConv = .bitcast := ⟨rfl, rfl⟩

theorem witness_UnpackReadsTheFields : biasCfg.signConv = .bias ∧ bitcastCfg.signConv = .bitcast := ⟨rfl, rfl⟩

/-- Each of the four ranges at its end. -/
theorem witness_BiasWrapsOnlyBelowTheRange : biasCfg.signConv = .bias ∧
    sZ (BitVec.ofInt 64 (-90000000)) = -90000000 ∧ sZ (BitVec.ofInt 64 (-90000001)) = -90000001 ∧
    sZ (BitVec.ofInt 64 (-180000000)) = -180000000 ∧ sZ (BitVec.ofInt 64 (-180000001)) = -180000001 := by decide

theorem witness_PackAndUnpackRoundTrip :
    (∃ t1, exec .pack (at' biasCfg (onA (addr 0 0 (-90000001) 0))) = .next t1 ∧
      t1.out.rp = some (at' biasCfg (onP 0x00000000000000000000000000000000FFFFFFFFFFFFFFFF000000000ABA9500)).inp.p) ∧
    (∃ t1, exec .unpack (at' biasCfg (onP 0)) = .next t1 ∧
      t1.out.ra = some (at' biasCfg (onA (addr 0 0 (-90000000) (-180000000)))).inp.a) ∧
    (∃ t1, exec .pack (at' biasCfg (onA (addr 0 1000000 0 0))) = .next t1 ∧
      t1.out.rp = some (at' bitcastCfg (onP 0x000000000000000000000000000F424000000000055D4A80000000000ABA9500)).inp.p) :=
  ⟨⟨_, exec_eq _ _, by decide⟩, ⟨_, exec_eq _ _, by decide⟩, ⟨_, exec_eq _ _, by decide⟩⟩

theorem witness_ToHexSpellsTheBytesInOrder :
    ∃ t, exec .tohex (at' biasCfg (onA (addr 5 7 10 20))) = .next t ∧
      t.out.rt = some (hexText (pack biasCfg (addr 5 7 10 20))) ∧
      (packedBytes (pack biasCfg (addr 5 7 10 20)))[0]? = some 0 ∧
      (packedBytes (pack biasCfg (addr 5 7 10 20)))[31]? = some 0x14 := ⟨_, exec_eq _ _, rfl, rfl, rfl⟩

/-- The text V20 meets the first clause; a length of 63, a length of 65 and one bad cell meet the second. -/
theorem witness_FromHexAcceptsExactlyTheHexTexts :
    (let s := at' biasCfg (onText "000000000000000000000000000F42A400000000055D4AB2000000000ABA94CE")
     s.inp.tlen.toNat = 64 ∧ ∀ cell ∈ s.inp.t.toList, isHexCell s.cfg cell = true) ∧
    (at' biasCfg { Operands.zero with tlen := 63 }).inp.tlen.toNat ≠ 64 ∧
    (at' biasCfg { Operands.zero with tlen := 65 }).inp.tlen.toNat ≠ 64 ∧
    (∃ cell ∈ (at' biasCfg { Operands.zero with tlen := 64 }).inp.t.toList, isHexCell biasCfg cell = false) :=
  ⟨⟨rfl, List.all_eq_true.mp rfl⟩, by decide, by decide, ⟨0, by simp [at', Operands.zero], rfl⟩⟩

/-- The cells at the ends of the three ranges of digits, and those just outside. -/
theorem test_hex_cells :
    ([0x30, 0x39, 0x61, 0x66, 0x41, 0x46].all (isHexCell biasCfg) = true) ∧
    ([0x2F, 0x3A, 0x60, 0x67, 0x40, 0x47].any (isHexCell biasCfg) = false) ∧
    ([0x41, 0x46].any (isHexCell bitcastCfg) = false) := ⟨rfl, rfl, rfl⟩

/-- S3's form of text, in lower case. -/
def lowerText : State := at' biasCfg (onText "0000000000000005000000000000000700000000055d4a8a000000000aba9514")

theorem witness_HexTextRoundTrips :
    (∃ t1, exec .tohex (at' biasCfg (onA (addr 5 7 10 20))) = .next t1 ∧
      t1.out.rt = some lowerText.inp.t.toList ∧ t1.out.rtlen = some lowerText.inp.tlen) ∧
    (results (exec .fromhex lowerText)).bind (·.ra) = some (at' biasCfg (onA (addr 5 7 10 20))).inp.a ∧
    lowerText.inp.t.toList.all (fun cell => decide (cell.toNat < 0x41 ∨ 0x46 < cell.toNat)) = true :=
  ⟨⟨_, exec_eq _ _, rfl, rfl⟩, rfl, rfl⟩

/-- The smallest codes of their ranges; and -1 against 0 under BITCAST. -/
theorem witness_PackedOrderIsTextOrder :
    (let s1 := at' biasCfg (onA (addr 5 7 10 20))
     let s2 := at' biasCfg (onA (addr 5 7 10 21))
     ∃ t1 t2, exec .tohex s1 = .next t1 ∧ exec .tohex s2 = .next t2 ∧
       t1.out.rt = some (hexText (pack biasCfg (addr 5 7 10 20))) ∧
       t2.out.rt = some (hexText (pack biasCfg (addr 5 7 10 21)))) ∧
    (let a := addr 0 0 (-90000000) (-180000000);
     -90000000 ≤ sZ a.lat ∧ -180000000 ≤ sZ a.lon) ∧
    (bitcastCfg.signConv = .bitcast ∧ sZ (BitVec.allOnes 64) < 0 ∧ 0 ≤ sZ (0 : Field)) :=
  ⟨⟨_, _, exec_eq _ _, exec_eq _ _, rfl, rfl⟩, by decide, by decide⟩

/-- No turn, and the three turns of V47; V45 ends exactly at a pole. -/
theorem witness_ApplyFollowsTheFiveSteps :
    (let s := at' biasCfg (onAD (addr 3 10 0 0) (delta 0 500000000 0))
     let ended := poleLoop 3 (sZ s.inp.a.lat + sZ s.inp.d.dlat, sZ s.inp.a.lon + sZ s.inp.d.dlon);
     -90000000 ≤ ended.1 ∧ ended.1 ≤ 90000000) ∧
    (poleLoop 2 (450000000, 0)).1 = 90000000 ∧ (poleLoop 0 (-90000000, 0)).1 = -90000000 := by decide

theorem witness_PoleLoopEndsInsideTheRange : 0 < ((90000001 : Int).natAbs - 90000000 + 179999999) / 180000000 := by decide

theorem witness_ClosedFormEqualsTheLoop :
    -90000000 ≤ (poleLoop 2 (-270000001, 0)).1 ∧ (poleLoop 2 (-270000001, 0)).1 ≤ 90000000 := by decide

theorem witness_ApplyDeliversANormalisedAddress :
    (let s := at' biasCfg (onAD (addr 1 2 90000000 179999999) ⟨0, 0, 0⟩)
     s.inp.d = ⟨0, 0, 0⟩ ∧ validCodes s.inp.a = true) ∧
    validCodes (addr 1 2 (-90000000) (-180000000)) = true := by decide

/-- One below 0, both ends of the range, one above it, under either parameter. -/
theorem witness_ApplyRadiusFloorsAndSaturates :
    uZ (addr 0 500 0 0).radius + sZ (delta (-501) 0 0).dr = -1 ∧
    uZ (addr 0 500 0 0).radius + sZ (delta (-500) 0 0).dr = 0 ∧
    uZ (addr 0 18446744073709551610 0 0).radius + sZ (delta 5 0 0).dr = 18446744073709551615 ∧
    uZ (addr 0 18446744073709551615 0 0).radius + sZ (delta 1 0 0).dr = 18446744073709551616 ∧
    biasCfg.radiusHigh = .saturate ∧ bitcastCfg.radiusHigh = .wrap := by decide

/-- Both ends of both ranges. -/
theorem witness_OnePoleCrossingReflects :
    ∀ x ∈ [(90000001 : Int), 270000000, -90000001, -270000000],
      sZ (addr 3 10 0 0).lat + sZ (delta 0 x 0).dlat = x := by decide

/-- The three applications of S4 that meet no pole. -/
def additive1 : State := at' biasCfg (onAD (addr 0 1000000 10 179999990) (delta 5 5 15))
def additive2 : State := at' biasCfg (onAD (applyDelta biasCfg additive1.inp.a additive1.inp.d) (delta 7 (-3) 10))
def additive3 : State := at' biasCfg (onAD (addr 0 1000000 10 179999990) (delta 12 2 25))

theorem witness_ApplyAddsWithoutReflection :
    (additive2.cfg = additive1.cfg ∧ additive3.cfg = additive1.cfg ∧ additive3.inp.a = additive1.inp.a) ∧
    (sZ additive3.inp.d.dr = sZ additive1.inp.d.dr + sZ additive2.inp.d.dr ∧
      sZ additive3.inp.d.dlat = sZ additive1.inp.d.dlat + sZ additive2.inp.d.dlat ∧
      sZ additive3.inp.d.dlon = sZ additive1.inp.d.dlon + sZ additive2.inp.d.dlon) ∧
    (sZ additive1.inp.a.lat + sZ additive1.inp.d.dlat = 15 ∧
      sZ additive1.inp.a.lat + sZ additive1.inp.d.dlat + sZ additive2.inp.d.dlat = 12) ∧
    (uZ additive1.inp.a.radius + sZ additive1.inp.d.dr = 1000005 ∧
      uZ additive1.inp.a.radius + sZ additive1.inp.d.dr + sZ additive2.inp.d.dr = 1000012) ∧
    (∃ t1, exec .apply additive1 = .next t1 ∧ t1.out.ra = some additive2.inp.a) ∧
    ∃ t2, exec .apply additive2 = .next t2 :=
  ⟨⟨rfl, rfl, rfl⟩, by decide, by decide, by decide, ⟨_, exec_eq _ _, rfl⟩, ⟨_, exec_eq _ _⟩⟩

/-- A Delta field at the bound `2^125`. -/
theorem witness_SmallDeltasNeedOnly128Bits : sZ (0x20000000000000000000000000000000 : DeltaField) = 2 ^ 125 := rfl

theorem witness_SubIsTheFieldwiseDifference :
    (addr 7 1 0 0).frame = (addr 7 2 0 0).frame ∧ (addr 9223372036854775808 0 0 0).frame ≠ (addr 0 0 0 0).frame := by decide

/-- V77. -/
theorem witness_ApplyUndoesSub :
    let s1 := at' biasCfg (onAB (addr 7 6371000000000 89999970 (-135000000)) (addr 7 6371000000000 89999990 45000000))
    let s2 := at' biasCfg (onAD (addr 7 6371000000000 89999990 45000000) (delta 0 (-20) (-180000000)))
    s1.inp.a.frame = s1.inp.b.frame ∧ validCodes s1.inp.a = true ∧
      (results (exec .sub s1)).bind (·.rd) = some s2.inp.d ∧ s2.inp.a = s1.inp.b := by decide

theorem witness_TruncKeepsTheTopBits : (0 : Nat) ≤ 51 ∧ (51 : Nat) ≤ 51 := by decide

theorem witness_CountsAbove51AreOutOfRange :
    (.snapP 52 ∈ [Instr.truncA 52, .truncP 52, .eqwA 52, .eqwP 52, .snapA 52, .snapP 52] ∧ 52 ≤ 52) ∧
    (.truncA 51 ∈ [Instr.truncA 51, .truncP 51, .eqwA 51, .eqwP 51, .snapA 51, .snapP 51] ∧ 51 ≤ 51) := by decide

/-- The least count out of range, the greatest a command word carries, and one above it, which is presented as 255. -/
theorem witness_PresentedCountHasTheSameOutcome : 52 ≤ 52 ∧ presentUnits 52 = 52 ∧ 52 ≤ 255 ∧ presentUnits 255 = 255 ∧
    52 ≤ 256 ∧ presentUnits 256 = 255 ∧
    Instr.eqwP (presentUnits 256) ∈ [Instr.truncA (presentUnits 256), .truncP (presentUnits 256), .eqwA (presentUnits 256),
      .eqwP (presentUnits 256), .snapA (presentUnits 256), .snapP (presentUnits 256)] := by decide

theorem witness_TruncationsNest :
    ∃ t1, exec (.truncP 13) (at' biasCfg (onP vectorW)) = .next t1 ∧
      t1.out.rp = some (at' biasCfg (onP 0x0123456789ABCDEF800000000000000000000000000000000000000000000000)).inp.p :=
  ⟨_, exec_eq _ _, by decide⟩

theorem witness_EqwComparesTheTopBits : (0 : Nat) ≤ 51 ∧ (51 : Nat) ≤ 51 := by decide

theorem witness_CoarserPrecisionMatchesMore :
    (∃ t, exec (.eqwA 51) (at' biasCfg (onAB (addr 5 7 10 20) (addr 5 7 10 21))) = .next t ∧ t.out.rf = some true) ∧
    (∃ t, exec (.eqwP 51) (at' biasCfg (onPQ vectorW (vectorW + 1))) = .next t ∧ t.out.rf = some true) :=
  ⟨⟨_, exec_eq _ _, by decide⟩, ⟨_, exec_eq _ _, by decide⟩⟩

theorem witness_AddressFormPacksFirst :
    let s := at' biasCfg (onAB (addr 0 1000000 0 0) (addr 0 1000100 50 (-50)))
    let sb := at' biasCfg (onA (addr 0 1000100 50 (-50)))
    let s' := at' biasCfg (onPQ 0x000000000000000000000000000F424000000000055D4A80000000000ABA9500
      0x000000000000000000000000000F42A400000000055D4AB2000000000ABA94CE)
    s'.cfg = s.cfg ∧ sb.cfg = s.cfg ∧ sb.inp.a = s.inp.b ∧
      (results (exec .pack s)).bind (·.rp) = some s'.inp.p ∧ (results (exec .pack sb)).bind (·.rp) = some s'.inp.q := by decide

/-- V122 at 12 and 13 units and V123 at 24 and 25: both answers, at the ends of the two ranges. -/
theorem witness_CoarseCountsSeeOnlyTheUpperFields : ((12 : Nat) ≤ 12 ∧ (25 : Nat) ≤ 25) ∧
    (results (exec (.eqwA 12) (at' biasCfg (onAB (addr 0 0 0 0) (addr 1 0 0 0))))).bind (·.rf) = some true ∧
    (results (exec (.eqwA 13) (at' biasCfg (onAB (addr 0 0 0 0) (addr 1 0 0 0))))).bind (·.rf) = some false ∧
    (results (exec (.eqwA 24) (at' biasCfg (onAB (addr 0 1000000 0 0) (addr 0 1000100 50 (-50)))))).bind (·.rf) = some true ∧
    (results (exec (.eqwA 25) (at' biasCfg (onAB (addr 0 1000000 0 0) (addr 0 1000100 50 (-50)))))).bind (·.rf) = some false := by
  decide

/-- V125. -/
theorem witness_SignConventionDecidesNearTheEquator :
    let a := addr 0 10 (-1) 0
    let b := addr 0 10 0 0
    sZ a.lat = -1 ∧ sZ b.lat = 0 ∧ a.frame = b.frame ∧ a.radius = b.radius ∧ a.lon = b.lon ∧
      biasCfg.signConv = .bias ∧ bitcastCfg.signConv = .bitcast := by decide

theorem witness_SnapWritesTheTagAndTheDigits : (0 : Nat) ≤ 51 ∧ (51 : Nat) ≤ 51 := by decide

theorem witness_TokensAgreeExactlyWhenEqwDoes :
    let s := at' biasCfg (onAB (addr 0 1000000 0 0) (addr 0 1000100 50 (-50)))
    let sb := at' biasCfg (onA (addr 0 1000100 50 (-50)))
    sb.cfg = s.cfg ∧ sb.inp.a = s.inp.b ∧ (∃ ta, exec (.snapA 24) s = .next ta) ∧
      (∃ tb, exec (.snapA 24) sb = .next tb) ∧ ∃ tf, exec (.eqwA 24) s = .next tf :=
  ⟨rfl, rfl, ⟨_, exec_eq _ _⟩, ⟨_, exec_eq _ _⟩, ⟨_, exec_eq _ _⟩⟩

theorem witness_RunGivesEachTransactionItsOwnResult : State.reset.rst = false := rfl

theorem witness_ResetLeavesNoTraceInARun : (at' bitcastCfg Operands.zero).rst = false := rfl

theorem witness_HostsDoNotInfluenceOneAnother : (at' bitcastCfg Operands.zero).rst = false := rfl

end Sys2Proof.Tests
end

/-! SUPPORT. What an operation's results say of its row in the port table, of the invariant, and of a presented text (spec/10_state.md R27, R28, R34, R37; spec/40_codec.md R100). -/

namespace Sys2Proof.Machine

/-! What an operation delivers (spec/10_state.md R34). -/

/-- A count out of range raises PRECISION_RANGE; one in range leaves the operation's own results (spec/42_comparator.md R141). -/
theorem unitsResults_ok_or_raises (n : Nat) {r : Results} (hok : r.status = some .ok) :
    ((unitsResults n r).status = some .ok ∧ presentPorts (unitsResults n r) = presentPorts r) ∨
      ∃ e ∈ [Status.precisionRange], unitsResults n r = Results.error e := by
  by_cases hn : n ≤ 51
  · rw [unitsResults_in hn]
    exact .inl ⟨hok, rfl⟩
  · exact .inr ⟨_, List.mem_singleton_self _, unitsResults_out (by omega) r⟩

/-- An operation ends with OK and drives the ports of its row, or it delivers an error of its row and nothing else. -/
theorem opResults_ok_or_raises (c : Config) (o : Operands) (i : Instr) :
    ((opResults c o i).status = some .ok ∧ presentPorts (opResults c o i) = drivenPorts i) ∨
      ∃ e ∈ canRaise i, opResults c o i = Results.error e := by
  cases i with
  | enc | dec | pack | unpack | tohex | apply | eq => exact .inl ⟨rfl, rfl⟩
  | fromhex =>
    simp only [opResults]
    cases parseHex c o.t o.tlen with
    | some w => exact .inl ⟨rfl, rfl⟩
    | none => exact .inr ⟨_, List.mem_singleton_self _, rfl⟩
  | sub =>
    by_cases hf : o.a.frame = o.b.frame
    · simp [opResults, hf, drivenPorts]
    · simp [opResults, hf, canRaise]
  | truncA n | truncP n | eqwA n | eqwP n | snapA n | snapP n => exact unitsResults_ok_or_raises n rfl

/-- With OK exactly the ports of the row are driven. -/
theorem presentPorts_opResults {c : Config} {o : Operands} {i : Instr}
    (hok : (opResults c o i).status = some .ok) : presentPorts (opResults c o i) = drivenPorts i := by
  obtain ⟨-, hports⟩ | ⟨e, he, heq⟩ := opResults_ok_or_raises c o i
  · exact hports
  · rw [heq, error_status, Option.some.injEq] at hok
    subst hok
    cases i <;> simp [canRaise] at he

/-- The status is OK or one of the row. -/
theorem status_opResults {c : Config} {o : Operands} {i : Instr} {e : Status}
    (he : (opResults c o i).status = some e) : e = .ok ∨ e ∈ canRaise i := by
  obtain ⟨hok, -⟩ | ⟨e', hmem, heq⟩ := opResults_ok_or_raises c o i
  · exact .inl (Option.some.inj (he.symm.trans hok))
  · rw [heq, error_status, Option.some.injEq] at he
    exact .inr (he ▸ hmem)

/-- An operation reads the parameters and the operand ports of its row, and nothing else. -/
theorem opResults_congr {c : Config} {o o' : Operands} {i : Instr}
    (h : ∀ port ∈ readPorts i, agreeOn o o' port) : opResults c o i = opResults c o' i := by
  cases i <;> simp only [readPorts, List.forall_mem_cons, agreeOn] at h <;> simp only [opResults, h]

/-! The invariant (spec/10_state.md R28, R37; spec/60_exceptions.md R166). -/

theorem lawful_absent : lawful Results.absent = true := by simp [lawful]

theorem lawful_error {e : Status} (h : e ≠ .ok) : lawful (Results.error e) = true := by
  cases e with
  | ok => exact absurd rfl h
  | parseError | precisionRange | crossFrame | illegalCmd => simp [lawful]

/-- The ports one operation drives are lawful together, when `rtlen` measures `rt`. -/
theorem lawful_of_drivenPorts {r : Results} (i : Instr) (hok : r.status = some .ok)
    (hports : presentPorts r = drivenPorts i) (htext : textMeasured r = true) : lawful r = true := by
  simp only [lawful, hok, htext, hports, Bool.and_true, decide_eq_true_eq]
  cases i <;> simp [drivenPorts]

theorem ok_not_mem_canRaise (i : Instr) : Status.ok ∉ canRaise i := by
  cases i <;> simp [canRaise]

/-- A text of fewer than 256 cells is measured by its 8-bit length. -/
theorem textMeasured_okText {cells : List Byte} (h : cells.length < 256) :
    textMeasured (Results.okText cells) = true := by
  simp [textMeasured, Nat.mod_eq_of_lt h]

theorem textMeasured_unitsResults (n : Nat) {r : Results} (h : textMeasured r = true) :
    textMeasured (unitsResults n r) = true := by
  unfold unitsResults
  split
  · exact h
  · rfl

/-- A SNAP token of a tag of at most 191 bytes has at most 255 cells. -/
theorem snapText_length_lt {c : Config} (hc : c.wf = true) (p : Packed) (n : Nat) :
    (snapText c p n).length < 256 := by
  have htag : c.snapTag.length ≤ 191 := of_decide_eq_true hc
  rw [snapText_length]
  omega

/-- In a block with a tag of at most 191 bytes `rtlen` measures `rt`, whatever the operation. -/
theorem textMeasured_opResults {c : Config} (hc : c.wf = true) (o : Operands) (i : Instr) :
    textMeasured (opResults c o i) = true := by
  cases i with
  | enc | dec | pack | unpack | apply | eq => rfl
  | tohex => exact textMeasured_okText (by simp)
  | fromhex | sub =>
    simp only [opResults]
    split <;> rfl
  | truncA n | truncP n | eqwA n | eqwP n => exact textMeasured_unitsResults n rfl
  | snapA n | snapP n =>
    exact textMeasured_unitsResults n (textMeasured_okText (snapText_length_lt hc _ n))

theorem lawful_opResults {c : Config} (hc : c.wf = true) (o : Operands) (i : Instr) :
    lawful (opResults c o i) = true := by
  obtain ⟨hok, hports⟩ | ⟨e, he, heq⟩ := opResults_ok_or_raises c o i
  · exact lawful_of_drivenPorts i hok hports (textMeasured_opResults hc o i)
  · rw [heq]
    exact lawful_error (ne_of_mem_of_not_mem he (ok_not_mem_canRaise i))

theorem lawful_stepResults {s : State} (hc : s.cfg.wf = true) : lawful (stepResults s) = true := by
  unfold stepResults
  split
  · exact lawful_absent
  · split
    next i _ => exact lawful_opResults hc s.inp i
    next => exact lawful_error (by decide)

/-- The open tag of the default parameters has at most 191 bytes (spec/10_state.md R28). -/
theorem default_wf : Config.default.wf = true :=
  decide_eq_true (by simpa [Config.default] using Config.openTagLen.is_le)

/-! A text presented by a host (spec/10_state.md R27). -/

/-- The presented length is 64 for a text of 64 characters and no other: a longer one is reported as 255 at most. -/
theorem textLength_eq_64 (text : List Byte) : (textLength text).toNat = 64 ↔ text.length = 64 := by
  rw [textLength, BitVec.toNat_ofNat]
  omega

/-- A text of 64 characters fills port `t` exactly. -/
theorem textCells_toList {text : List Byte} (h : text.length = 64) : (textCells text).toList = text := by
  simp [textCells, ← h]

/-- A text parses exactly when its length is 64 and every cell is a hex digit (spec/40_codec.md R100). -/
theorem parseHex_ne_none_iff (c : Config) (t : Vector Byte 64) (tlen : BitVec 8) :
    parseHex c t tlen ≠ none ↔ tlen.toNat = 64 ∧ ∀ cell ∈ t.toList, isHexCell c cell = true := by
  rw [Ne, parseHex_none]
  simp [← hexVal_isSome, Option.isSome_iff_ne_none]

/-- FROMHEX ends with OK exactly when its text parses. -/
theorem fromhex_ok_iff (c : Config) (o : Operands) :
    (opResults c o .fromhex).status = some .ok ↔ parseHex c o.t o.tlen ≠ none := by
  simp only [opResults]
  cases parseHex c o.t o.tlen <;> simp

/-! The statements of spec/10_state.md. -/

/-- Settles O13: the tag is a parameter, which no step changes, and what a step delivers is lawful in every block with such a tag. -/
theorem everyStepKeepsTheInvariant : Obligations.EveryStepKeepsTheInvariant := by
  intro s t hinv hstep
  obtain ⟨hwf, -⟩ := Bool.and_eq_true_iff.mp hinv
  rw [step_next hstep]
  exact Bool.and_eq_true_iff.mpr ⟨hwf, lawful_stepResults hwf⟩

/-- Settles O10: a step delivers `stepResults`, which does not look at the result ports, and touches no operand port. -/
theorem resultsAreAFunctionOfTheTransaction : Obligations.ResultsAreAFunctionOfTheTransaction := by
  constructor
  · intro s1 s2 t1 t2 hcfg hrst1 hrst2 hinp hstep1 hstep2
    rw [step_next hstep1, step_next hstep2]
    exact stepResults_congr hcfg (hrst1.trans hrst2.symm) hinp
  · intro s t hstep
    rw [step_next hstep, deliver_inp]

/-- Settles O11: a step, and each operation, only delivers results. -/
theorem onlyTheResultPortsChange : Obligations.OnlyTheResultPortsChange := by
  constructor
  · intro s t hstep
    rw [step_next hstep]
    exact ⟨rfl, rfl, rfl⟩
  · intro i s t hexec
    rw [exec_next hexec]
    exact ⟨rfl, rfl, rfl⟩

/-- Settles O17: the columns "reads", "drives" and "can raise" each from the lemma about what an operation delivers. -/
theorem eachOperationUsesThePortsOfItsRow : Obligations.EachOperationUsesThePortsOfItsRow := by
  refine ⟨?reads, ?drives, ?raises, ?illegal⟩
  case reads =>
    intro i s1 s2 t1 t2 hcfg hagree hexec1 hexec2
    rw [exec_next hexec1, exec_next hexec2, ← hcfg]
    exact opResults_congr hagree
  case drives =>
    intro i s t hexec hok
    rw [exec_next hexec] at hok ⊢
    exact presentPorts_opResults hok
  case raises =>
    intro i s t e hexec he
    rw [exec_next hexec] at he
    exact status_opResults he
  case illegal =>
    intro s e hrst hdecode
    have hresults : stepResults s = Results.error .illegalCmd := by simp [stepResults, hrst, hdecode]
    rw [step_eq, hresults]
    rfl

/-- Settles O29: 64 is presented for a text of 64 characters alone, and such a text fills the cells exactly. -/
theorem fromHexOfAPresentedText : Obligations.FromHexOfAPresentedText := by
  intro s text
  refine ⟨_, exec_eq _ _, ?accepts, ?outcomes⟩
  case accepts =>
    rw [deliver_out, fromhex_ok_iff, parseHex_ne_none_iff]
    simp only [presentText, textLength_eq_64]
    exact and_congr_right fun hlen => by rw [textCells_toList hlen]
  case outcomes =>
    rw [deliver_out]
    obtain ⟨hok, -⟩ | ⟨e, he, heq⟩ := opResults_ok_or_raises s.cfg (presentText text s.inp) .fromhex
    · exact .inl hok
    · rw [heq, List.mem_singleton.mp he]
      exact .inr rfl

/-- Settles O6: with reset released and a legal word, the step is the arm of `exec`. -/
theorem stepPerformsTheCommandOnThePorts : Obligations.StepPerformsTheCommandOnThePorts := by
  intro s i hrst hdecode
  simp [step, fetchCommand, hrst, hdecode]

/-- Settles O8: each part is a field of `State.reset`. -/
theorem resetStateDrivesNothing : Obligations.ResetStateDrivesNothing :=
  ⟨rfl, rfl, rfl, rfl, rfl, rfl⟩

/-- Settles O14: the open tag has a length below 192, and the ports out of reset are absent. -/
theorem resetMeetsTheInvariant : Obligations.ResetMeetsTheInvariant :=
  Bool.and_eq_true_iff.mpr ⟨default_wf, lawful_absent⟩

end Sys2Proof.Machine

/-! SUPPORT. The packed word as 32 bytes, and runs of transactions (spec/20_memory.md R43, R45, R46, R48). -/

namespace Sys2Proof.Machine

/-! The bytes of the packed word and the digits that spell them (spec/20_memory.md R45, R46). -/

@[simp] theorem packedBytes_length (p : Packed) : (packedBytes p).length = 32 := by simp [packedBytes]

theorem packedBytes_getElem? (p : Packed) {k : Nat} (hk : k < 32) :
    (packedBytes p)[k]? = some (p.extractLsb' (248 - 8 * k) 8) := by
  simp [packedBytes, hk]

/-- Digit `2k` is the upper half of byte `k`. -/
theorem nibble_even (p : Packed) {k : Nat} (hk : k < 32) :
    (nibble p (2 * k)).toNat = (p.extractLsb' (248 - 8 * k) 8).toNat / 16 := by
  have hlo : 252 - 4 * (2 * k) = 248 - 8 * k + 4 := by omega
  rw [nibble_toNat, slice_toNat, hlo, Nat.pow_add, ← Nat.div_div_eq_div_mul]
  omega

/-- Digit `2k + 1` is the lower half of byte `k`. -/
theorem nibble_odd (p : Packed) {k : Nat} (hk : k < 32) :
    (nibble p (2 * k + 1)).toNat = (p.extractLsb' (248 - 8 * k) 8).toNat % 16 := by
  have hlo : 252 - 4 * (2 * k + 1) = 248 - 8 * k := by omega
  rw [nibble_toNat, slice_toNat, hlo]
  omega

/-- Cell `i` of a hex text is the alphabet's character for digit `i` (spec/30_encoding.md R65). -/
theorem hexText_alphabet (p : Packed) {i : Nat} (hi : i < 64) :
    ((hexText p)[i]?).map (fun cell => cell.toNat) = hexAlphabet[(nibble p i).toNat]? := by
  rw [hexText_getElem? p i hi, Option.map_some, hexDigit_alphabet]

/-! A transaction and a run as the host sees them (spec/70_reset_and_hazards.md R188, R196). -/

/-- What a transaction delivers alone is what a step out of reset delivers, whatever stands on the result ports. -/
theorem respond_eq {s : State} (hrst : s.rst = false) (o : Operands) :
    respond s.cfg o = [stepResults { s with inp := o }] := by
  have hcongr : stepResults { State.reset with cfg := s.cfg, inp := o } = stepResults { s with inp := o } :=
    stepResults_congr rfl hrst.symm rfl
  rw [respond, takeStep_eq, ← hcongr]
  rfl

/-- One transaction is one set of results. -/
theorem respond_length (c : Config) (o : Operands) : (respond c o).length = 1 := by
  rw [respond_eq (s := { State.reset with cfg := c }) rfl, List.length_singleton]

/-- Out of reset the host receives of a transaction what the transaction delivers alone. -/
theorem hostAct_transact_received {s : State} (hrst : s.rst = false) (o : Operands) :
    (hostAct (.transact o) s).2 = respond s.cfg o := by
  simp [hostAct, takeStep_eq, hrst, respond_eq hrst]

@[simp] theorem hostAct_transact_cfg (o : Operands) (s : State) :
    (hostAct (.transact o) s).1.cfg = s.cfg := by simp [hostAct, takeStep_eq]

@[simp] theorem hostAct_transact_rst (o : Operands) (s : State) :
    (hostAct (.transact o) s).1.rst = s.rst := by simp [hostAct, takeStep_eq]

/-- A run of transactions out of reset delivers what each delivers alone, in their order. -/
theorem hostRun_transacts_received (ops : List Operands) {s : State} (hrst : s.rst = false) :
    (hostRun (ops.map .transact) s).2 = (ops.map (respond s.cfg)).flatten := by
  induction ops generalizing s with
  | nil => rfl
  | cons o ops ih =>
    have hrest := ih (s := (hostAct (.transact o) s).1) (by rw [hostAct_transact_rst, hrst])
    rw [hostAct_transact_cfg] at hrest
    simp only [List.map_cons, List.flatten_cons, hostRun, hrest, hostAct_transact_received hrst]

/-! The statements of spec/20_memory.md. -/

/-- Settles O12: a step changes the result ports alone, which its results do not depend on, and delivering the same results twice is delivering them once. -/
theorem stepIsIdempotent : Obligations.StepIsIdempotent := by
  intro s t hstep
  obtain rfl := step_next hstep
  have hresults : stepResults (s.deliver (stepResults s)) = stepResults s := stepResults_congr rfl rfl rfl
  rw [step_eq, hresults, deliver_deliver]

/-- Settles O26: byte `k` is digits `2k` and `2k + 1` of the word, and each digit is a cell of the text. -/
theorem toHexSpellsTheBytesInOrder : Obligations.ToHexSpellsTheBytesInOrder := by
  intro s t cells hexec hcells
  obtain rfl : hexText (pack s.cfg s.inp.a) = cells := by
    rw [exec_next hexec] at hcells
    exact Option.some.inj hcells
  refine ⟨packedBytes_length _, fun k b hbyte => ?_⟩
  have hk : k < 32 := by
    obtain ⟨hlt, -⟩ := List.getElem?_eq_some_iff.mp hbyte
    rwa [packedBytes_length] at hlt
  rw [packedBytes_getElem? _ hk] at hbyte
  obtain rfl := Option.some.inj hbyte
  rw [← nibble_even _ hk, ← nibble_odd _ hk]
  exact ⟨hexText_alphabet _ (by omega), hexText_alphabet _ (by omega)⟩

/-- Settles O56: the results by induction over the run, their number since each transaction gives one set. -/
theorem runGivesEachTransactionItsOwnResult : Obligations.RunGivesEachTransactionItsOwnResult := by
  intro ops s hrst
  refine ⟨hostRun_transacts_received ops hrst, ?_⟩
  rw [hostRun_transacts_received ops hrst]
  simp [List.length_flatten, Function.comp_def, respond_length]

end Sys2Proof.Machine

/-! SUPPORT. The decoder and the encoder against each other, and the rows of the operation map (spec/30_encoding.md R56, R57, R59, R70). -/

namespace Sys2Proof

/-! What the decoder answers, by the field `op` (spec/30_encoding.md R59, R70). -/

theorem decodePlain_eq_ok {w : CmdWord} {i j : Instr} (h : decodePlain w i = .ok j) :
    cmdPk w = 0 ∧ cmdUnits w = 0 ∧ i = j := by
  unfold decodePlain at h
  split at h
  next hzero => exact ⟨hzero.1, hzero.2, Except.ok.inj h⟩
  next => cases h

theorem decodePlain_eq_error_iff (w : CmdWord) (i : Instr) :
    (∃ e, decodePlain w i = .error e) ↔ ¬ (cmdPk w = 0 ∧ cmdUnits w = 0) := by
  unfold decodePlain
  by_cases hzero : cmdPk w = 0 ∧ cmdUnits w = 0
  · rw [if_pos hzero]
    exact iff_of_false (by simp) (not_not_intro hzero)
  · rw [if_neg hzero]
    exact iff_of_true ⟨_, rfl⟩ hzero

/-- `op` 1 to 9: an operation without a count. -/
theorem decodeOp_of_plain_op {w : CmdWord} (h1 : 1 ≤ (cmdOp w).toNat) (h9 : (cmdOp w).toNat ≤ 9) :
    ∃ i, WellFormed i = true ∧ encode i = cmdOf 0 0 (cmdOp w) ∧ decodeOp w = decodePlain w i := by
  have ops : ∀ op : BitVec 4, 1 ≤ op.toNat → op.toNat ≤ 9 →
      op = 1 ∨ op = 2 ∨ op = 3 ∨ op = 4 ∨ op = 5 ∨ op = 6 ∨ op = 7 ∨ op = 8 ∨ op = 9 := by decide
  unfold decodeOp
  generalize cmdOp w = op at *
  rcases ops op h1 h9 with rfl | rfl | rfl | rfl | rfl | rfl | rfl | rfl | rfl <;>
    exact ⟨_, rfl, rfl, rfl⟩

theorem unitsFit_cmdUnits (w : CmdWord) : unitsFit (cmdUnits w) = true :=
  decide_eq_true (w.extractLsb' 5 8).isLt

/-- An operation with a count answers with the form that `pk` selects. -/
theorem decodeUnits_eq_ok (w : CmdWord) {address packed : Nat → Instr} {op : BitVec 4}
    (hunits : ∀ n, unitsOf (address n) = some n ∧ unitsOf (packed n) = some n)
    (hwf : ∀ n, WellFormed (address n) = unitsFit n ∧ WellFormed (packed n) = unitsFit n)
    (hencode : ∀ n, encode (address n) = cmdOf n 0 op ∧ encode (packed n) = cmdOf n 1 op) :
    ∃ i, unitsOf i = some (cmdUnits w) ∧ WellFormed i = true ∧
      encode i = cmdOf (cmdUnits w) (cmdPk w) op ∧ decodeUnits w address packed = .ok i := by
  unfold decodeUnits
  by_cases hpk : cmdPk w = 0
  · exact ⟨_, (hunits _).1, (hwf _).1.trans (unitsFit_cmdUnits w), by rw [hpk, (hencode _).1], if_pos hpk⟩
  · have hpk1 : cmdPk w = 1 := (BitVec.eq_zero_or_eq_one _).resolve_left hpk
    exact ⟨_, (hunits _).2, (hwf _).2.trans (unitsFit_cmdUnits w), by rw [hpk1, (hencode _).2], if_neg hpk⟩

/-- `op` 0xA to 0xC: an operation with a count, in either form; every count is legal. -/
theorem decodeOp_of_units_op {w : CmdWord} (hA : 0xA ≤ (cmdOp w).toNat) (hC : (cmdOp w).toNat ≤ 0xC) :
    ∃ i, unitsOf i = some (cmdUnits w) ∧ WellFormed i = true ∧
      encode i = cmdOf (cmdUnits w) (cmdPk w) (cmdOp w) ∧ decodeOp w = .ok i := by
  have ops : ∀ op : BitVec 4, 0xA ≤ op.toNat → op.toNat ≤ 0xC → op = 0xA ∨ op = 0xB ∨ op = 0xC := by decide
  unfold decodeOp
  generalize cmdOp w = op at *
  rcases ops op hA hC with rfl | rfl | rfl <;>
    exact decodeUnits_eq_ok w (fun _ => ⟨rfl, rfl⟩) (fun _ => ⟨rfl, rfl⟩) (fun _ => ⟨rfl, rfl⟩)

/-- The other values of `op` select nothing. -/
theorem decodeOp_of_no_op {w : CmdWord} (h : (cmdOp w).toNat = 0 ∨ 0xD ≤ (cmdOp w).toNat) :
    decodeOp w = .error .noOperation := by
  have ops : ∀ op : BitVec 4, op.toNat = 0 ∨ 0xD ≤ op.toNat →
      op = 0 ∨ op = 0xD ∨ op = 0xE ∨ op = 0xF := by decide
  unfold decodeOp
  generalize cmdOp w = op at *
  rcases ops op h with rfl | rfl | rfl | rfl <;> rfl

/-- The values of `op` fall into these three ranges. -/
theorem cmdOp_ranges (w : CmdWord) : ((cmdOp w).toNat = 0 ∨ 0xD ≤ (cmdOp w).toNat) ∨
    (1 ≤ (cmdOp w).toNat ∧ (cmdOp w).toNat ≤ 9) ∨ (0xA ≤ (cmdOp w).toNat ∧ (cmdOp w).toNat ≤ 0xC) := by
  omega

theorem cmdRsv_eq_zero_iff (w : CmdWord) : cmdRsv w = 0 ↔ w.toNat / 8192 = 0 := by
  rw [← cmdRsv_toNat, BitVec.toNat_eq]
  rfl

theorem cmdPk_eq_zero_iff (w : CmdWord) : cmdPk w = 0 ↔ w.toNat / 16 % 2 = 0 := by
  rw [← cmdPk_toNat, BitVec.toNat_eq]
  rfl

theorem decode_of_rsv_zero {w : CmdWord} (h : cmdRsv w = 0) : decode w = decodeOp w := if_pos h

theorem decode_of_rsv_ne_zero {w : CmdWord} (h : cmdRsv w ≠ 0) : decode w = .error .reservedBits := if_neg h

/-! Encoding and decoding undo each other (spec/30_encoding.md R59). -/

/-- A word put together with the count of an operation that has one decodes to the form `pk` selects. -/
theorem decodeUnits_cmdOf {n : Nat} (hn : unitsFit n = true) (pk : BitVec 1) (op : BitVec 4)
    (address packed : Nat → Instr) : decodeUnits (cmdOf n pk op) address packed =
      .ok (if pk = 0 then address n else packed n) := by
  have hfit : n % 256 = n := Nat.mod_eq_of_lt (of_decide_eq_true hn)
  unfold decodeUnits
  rw [cmdPk_cmdOf, cmdUnits_cmdOf, hfit]
  split <;> rfl

theorem decode_encode {i : Instr} (hwf : WellFormed i = true) : decode (encode i) = .ok i := by
  cases i with
  | enc | dec | pack | unpack | tohex | fromhex | apply | sub | eq => rfl
  | truncA n | truncP n | eqwA n | eqwP n | snapA n | snapP n =>
    simp only [encode, decode_cmdOf, decodeOp, cmdOp_cmdOf]
    exact decodeUnits_cmdOf hwf _ _ _ _

theorem encode_of_decode {w : CmdWord} {i : Instr} (h : decode w = .ok i) :
    WellFormed i = true ∧ encode i = w := by
  by_cases hrsv : cmdRsv w = 0
  · rw [decode_of_rsv_zero hrsv] at h
    obtain hnone | ⟨h1, h9⟩ | ⟨hA, hC⟩ := cmdOp_ranges w
    · rw [decodeOp_of_no_op hnone] at h
      cases h
    · obtain ⟨j, hwf, hencode, hdecode⟩ := decodeOp_of_plain_op h1 h9
      obtain ⟨hpk, hunits, rfl⟩ := decodePlain_eq_ok (hdecode.symm.trans h)
      rw [← hpk, ← hunits, cmdOf_fields w hrsv] at hencode
      exact ⟨hwf, hencode⟩
    · obtain ⟨j, -, hwf, hencode, hdecode⟩ := decodeOp_of_units_op hA hC
      obtain rfl := Except.ok.inj (hdecode.symm.trans h)
      exact ⟨hwf, hencode.trans (cmdOf_fields w hrsv)⟩
  · rw [decode_of_rsv_ne_zero hrsv] at h
    cases h

theorem decode_eq_ok_iff (w : CmdWord) (i : Instr) :
    decode w = .ok i ↔ WellFormed i = true ∧ encode i = w :=
  ⟨encode_of_decode, fun ⟨hwf, hw⟩ => hw ▸ decode_encode hwf⟩

/-! The rows of the operation map (spec/30_encoding.md R59). -/

/-- A word selects the row of `i`. -/
def SelectsRow (w : CmdWord) (i : Instr) : Prop := w &&& (tableRow i).mask = (tableRow i).pattern

/-- The encoded word of an instruction selects its own row. -/
theorem selectsRow_encode (i : Instr) : SelectsRow (encode i) i := by
  cases i with
  | enc => exact Laws.TableRow.enc
  | dec => exact Laws.TableRow.dec
  | pack => exact Laws.TableRow.pack
  | unpack => exact Laws.TableRow.unpack
  | tohex => exact Laws.TableRow.tohex
  | fromhex => exact Laws.TableRow.fromhex
  | apply => exact Laws.TableRow.apply
  | sub => exact Laws.TableRow.sub
  | eq => exact Laws.TableRow.eq
  | truncA n => exact Laws.TableRow.truncA n
  | truncP n => exact Laws.TableRow.truncP n
  | eqwA n => exact Laws.TableRow.eqwA n
  | eqwP n => exact Laws.TableRow.eqwP n
  | snapA n => exact Laws.TableRow.snapA n
  | snapP n => exact Laws.TableRow.snapP n

theorem unitsOf_encode {i : Instr} (hwf : WellFormed i = true) :
    unitsOf i = none ∨ unitsOf i = some (cmdUnits (encode i)) := by
  cases i with
  | enc | dec | pack | unpack | tohex | fromhex | apply | sub | eq => exact .inl rfl
  | truncA n | truncP n | eqwA n | eqwP n | snapA n | snapP n =>
    have hfit : n % 256 = n := Nat.mod_eq_of_lt (of_decide_eq_true hwf)
    simp only [unitsOf, encode, cmdUnits_cmdOf, hfit, or_true]

/-- A word that agrees with `cmdOf 0 pk op` outside the count is that word with its own count. -/
theorem eq_cmdOf_of_masked {w : CmdWord} {pk : BitVec 1} {op : BitVec 4}
    (h : w &&& 0xE01F#16 = cmdOf 0 pk op) : w = cmdOf (cmdUnits w) pk op := by
  have hpk : pk.toNat < 2 := pk.isLt
  have hop : op.toNat < 16 := op.isLt
  have hmasked := congrArg BitVec.toNat h
  rw [masked_toNat, cmdOf_toNat] at hmasked
  apply BitVec.eq_of_toNat_eq
  rw [cmdOf_toNat, cmdUnits_eq]
  omega

/-- `i` with the count replaced, where it has one. -/
def withCount (n : Nat) : Instr → Instr
  | .enc => .enc
  | .dec => .dec
  | .pack => .pack
  | .unpack => .unpack
  | .tohex => .tohex
  | .fromhex => .fromhex
  | .apply => .apply
  | .sub => .sub
  | .eq => .eq
  | .truncA _ => .truncA n
  | .truncP _ => .truncP n
  | .eqwA _ => .eqwA n
  | .eqwP _ => .eqwP n
  | .snapA _ => .snapA n
  | .snapP _ => .snapP n

@[simp] theorem tableRow_withCount (n : Nat) (i : Instr) : tableRow (withCount n i) = tableRow i := by
  cases i <;> rfl

theorem withCount_eq_self {n : Nat} {i : Instr} (h : unitsOf i = none ∨ unitsOf i = some n) :
    withCount n i = i := by
  cases i <;> simp_all [unitsOf, withCount]

/-- A word that selects a row decodes to the operation of that row with the word's own count. -/
theorem decode_of_selectsRow {w : CmdWord} {i : Instr} (h : SelectsRow w i) :
    decode w = .ok (withCount (cmdUnits w) i) := by
  rw [decode_eq_ok_iff]
  cases i with
  | enc | dec | pack | unpack | tohex | fromhex | apply | sub | eq =>
    exact ⟨rfl, ((and_full_mask w).symm.trans h).symm⟩
  | truncA n | truncP n | eqwA n | eqwP n | snapA n | snapP n =>
    refine ⟨unitsFit_cmdUnits w, Eq.symm (eq_cmdOf_of_masked ?_)⟩
    exact h

theorem decode_eq_ok_iff_selectsRow (w : CmdWord) (i : Instr) :
    decode w = .ok i ↔ SelectsRow w i ∧ (unitsOf i = none ∨ unitsOf i = some (cmdUnits w)) := by
  constructor
  · intro h
    obtain ⟨hwf, rfl⟩ := encode_of_decode h
    exact ⟨selectsRow_encode i, unitsOf_encode hwf⟩
  · rintro ⟨hrow, hunits⟩
    rw [decode_of_selectsRow hrow, withCount_eq_self hunits]

/-- A word selects at most one row: both would be the row of what it decodes to. -/
theorem selectsRow_unique {w : CmdWord} {i j : Instr} (hi : SelectsRow w i) (hj : SelectsRow w j) :
    tableRow i = tableRow j := by
  have hsame : withCount (cmdUnits w) i = withCount (cmdUnits w) j :=
    Except.ok.inj ((decode_of_selectsRow hi).symm.trans (decode_of_selectsRow hj))
  rw [← tableRow_withCount (cmdUnits w) i, hsame, tableRow_withCount]

/-! Illegal words (spec/30_encoding.md R70). -/

theorem decodeOp_eq_error_iff (w : CmdWord) : (∃ e, decodeOp w = .error e) ↔
    ((cmdOp w).toNat = 0 ∨ 0xD ≤ (cmdOp w).toNat ∨
      (1 ≤ (cmdOp w).toNat ∧ (cmdOp w).toNat ≤ 9 ∧ ¬ (cmdPk w = 0 ∧ cmdUnits w = 0))) := by
  obtain hnone | ⟨h1, h9⟩ | ⟨hA, hC⟩ := cmdOp_ranges w
  · exact iff_of_true ⟨_, decodeOp_of_no_op hnone⟩ (hnone.imp_right .inl)
  · obtain ⟨i, -, -, hdecode⟩ := decodeOp_of_plain_op h1 h9
    rw [hdecode, decodePlain_eq_error_iff]
    refine ⟨fun h => .inr (.inr ⟨h1, h9, h⟩), fun h => ?_⟩
    obtain h | h | ⟨-, -, h⟩ := h
    · omega
    · omega
    · exact h
  · obtain ⟨i, -, -, -, hdecode⟩ := decodeOp_of_units_op hA hC
    rw [hdecode]
    exact iff_of_false (by simp) (by omega)

theorem decode_eq_error_iff (w : CmdWord) :
    (∃ e, decode w = .error e) ↔ cmdRsv w ≠ 0 ∨ ∃ e, decodeOp w = .error e := by
  by_cases hrsv : cmdRsv w = 0
  · simp only [decode_of_rsv_zero hrsv, hrsv, ne_eq, not_true, false_or]
  · exact iff_of_true ⟨_, decode_of_rsv_ne_zero hrsv⟩ (.inl hrsv)

/-- A word of an operation with a count decodes, to an instruction that carries that count. -/
theorem decode_of_units_op {w : CmdWord} (hrsv : cmdRsv w = 0) (hA : 0xA ≤ (cmdOp w).toNat)
    (hC : (cmdOp w).toNat ≤ 0xC) : ∃ i, unitsOf i = some (cmdUnits w) ∧ decode w = .ok i := by
  obtain ⟨i, hunits, -, -, hdecode⟩ := decodeOp_of_units_op hA hC
  exact ⟨i, hunits, (decode_of_rsv_zero hrsv).trans hdecode⟩

end Sys2Proof

namespace Sys2Proof.Machine

/-- An operation with a count above 51 raises PRECISION_RANGE, whatever its operands (spec/60_exceptions.md R168). -/
theorem opResults_units_out {i : Instr} {n : Nat} (hunits : unitsOf i = some n) (hn : 52 ≤ n) (c : Config)
    (o : Operands) : opResults c o i = Results.error .precisionRange := by
  cases i with
  | enc | dec | pack | unpack | tohex | fromhex | apply | sub | eq => cases hunits
  | truncA m | truncP m | eqwA m | eqwP m | snapA m | snapP m =>
    obtain rfl := Option.some.inj hunits
    exact unitsResults_out hn _

theorem stepResults_of_illegal {s : State} {e : Illegal} (hrst : s.rst = false)
    (hdecode : decode s.inp.cmd = .error e) : stepResults s = Results.error .illegalCmd := by
  simp only [stepResults, hrst, hdecode, Bool.false_eq_true, if_false]

theorem stepResults_of_legal {s : State} {i : Instr} (hrst : s.rst = false)
    (hdecode : decode s.inp.cmd = .ok i) : stepResults s = opResults s.cfg s.inp i := by
  simp only [stepResults, hrst, hdecode, Bool.false_eq_true, if_false]

/-- Settles O1: each form by its own word, the fields read back from what `encode` put together. -/
theorem decodeOfEncodeIsTheInstruction : Obligations.DecodeOfEncodeIsTheInstruction :=
  fun _ hwf => decode_encode hwf

/-- Settles O2: by the ranges of `op`, the word put together again from its fields. -/
theorem encodeOfDecodeIsTheWord : Obligations.EncodeOfDecodeIsTheWord :=
  fun _ _ h => encode_of_decode h

/-- Settles O3: a word that selects a row decodes to that row's operation with the word's count, and a word decodes to one instruction only. -/
theorem wordSelectsItsRowByMaskAndMatch : Obligations.WordSelectsItsRowByMaskAndMatch := by
  refine ⟨fun w i => ?_, fun w i j => selectsRow_unique⟩
  rw [decode_eq_ok_iff_selectsRow, cmdUnits_eq]
  rfl

/-- Settles O4: which words are illegal by the ranges of `op`, and what a step does with each kind by what its results are. -/
theorem illegalWordsAreTheListedOnes : Obligations.IllegalWordsAreTheListedOnes := by
  refine ⟨?words, ?illegal, ?counts⟩
  case words =>
    intro w
    rw [decode_eq_error_iff, decodeOp_eq_error_iff, Ne, cmdRsv_eq_zero_iff, cmdPk_eq_zero_iff, cmdUnits_eq,
      cmdOp_toNat, not_and_or]
  case illegal =>
    intro s e hrst hdecode
    rw [step_eq, stepResults_of_illegal hrst hdecode]
    rfl
  case counts =>
    intro s hrst hrsv hA hC hn
    rw [← cmdOp_toNat] at hA hC
    rw [← cmdUnits_eq] at hn
    obtain ⟨i, hunits, hdecode⟩ := decode_of_units_op ((cmdRsv_eq_zero_iff _).mpr hrsv) hA hC
    refine ⟨⟨i, hdecode⟩, ?_⟩
    rw [step_eq, stepResults_of_legal hrst hdecode, opResults_units_out hunits hn]
    rfl

/-- Settles O5: the decoder run on each word. -/
theorem writtenOutWordsDecode : Obligations.WrittenOutWordsDecode :=
  ⟨rfl, rfl, rfl, rfl, rfl, rfl, rfl, rfl⟩

end Sys2Proof.Machine

/-! SUPPORT. The field maps and the order of packed words, the count a host presents, and the Address form (spec/30_encoding.md R57, R58, R61, R68). -/

namespace Sys2Proof.Machine

/-! The field maps (spec/30_encoding.md R61). -/

theorem codeField_bijective (c : Config) (b : Nat) : Function.Bijective (codeField c b) :=
  Function.bijective_iff_has_inverse.mpr ⟨fieldCode c b, fieldCode_codeField c b, codeField_fieldCode c b⟩

/-- A code at or above `-bias` gives a field without reduction. -/
theorem uZ_codeField_of_ge {c : Config} (h : c.signConv = .bias) {b : Nat} (hb : b ≤ 2 ^ 63) {code : Field}
    (hcode : -(b : Int) ≤ sZ code) : uZ (codeField c b code) = sZ code + b := by
  have hrange := sZ_field_range code
  rw [uZ_codeField_bias h]
  omega

/-- A code below `-bias` gives a field reduced modulo `2^64`. -/
theorem uZ_codeField_of_lt {c : Config} (h : c.signConv = .bias) {b : Nat} {code : Field}
    (hcode : sZ code < -(b : Int)) : uZ (codeField c b code) = 2 ^ 64 + sZ code + b := by
  have hrange := sZ_field_range code
  rw [uZ_codeField_bias h]
  omega

/-- Codes not below `-bias` are ordered as their fields are. -/
theorem codeField_lt_iff {c : Config} (h : c.signConv = .bias) {b : Nat} (hb : b ≤ 2 ^ 63) {x y : Field}
    (hx : -(b : Int) ≤ sZ x) (hy : -(b : Int) ≤ sZ y) :
    (codeField c b x).toNat < (codeField c b y).toNat ↔ sZ x < sZ y := by
  have hfields : uZ (codeField c b x) < uZ (codeField c b y) ↔ sZ x < sZ y := by
    rw [uZ_codeField_of_ge h hb hx, uZ_codeField_of_ge h hb hy, add_lt_add_iff_right]
  exact Int.ofNat_lt.symm.trans hfields

/-- The bit pattern of a negative code is above that of every other (spec/30_encoding.md R68). -/
theorem uZ_codeField_bitcast_lt {c : Config} (h : c.signConv = .bitcast) (b : Nat) {x y : Field}
    (hx : sZ x < 0) (hy : 0 ≤ sZ y) : uZ (codeField c b y) < uZ (codeField c b x) := by
  have hxrange := uZ_lt x
  have hyrange := uZ_lt y
  have hxnonneg := uZ_nonneg x
  rw [codeField_bitcast h, codeField_bitcast h]
  rw [sZ_field] at hx hy
  split at hx <;> split at hy <;> omega

/-! Numbers written with their first digit most significant, and the lexicographic order of their digits (spec/30_encoding.md R68). -/

/-- The first digits decide; when they agree, the rest does. -/
theorem mul_add_lt_mul_add_iff {p a b x y : Nat} (hx : x < p) (hy : y < p) :
    x + p * a < y + p * b ↔ a < b ∨ a = b ∧ x < y := by
  have hstep {u v : Nat} (huv : u < v) : p * u + p ≤ p * v := Nat.mul_le_mul_left p huv
  obtain hab | rfl | hab := Nat.lt_trichotomy a b
  · have := hstep hab
    exact iff_of_true (by omega) (.inl hab)
  · simp
  · have := hstep hab
    exact iff_of_false (by omega) (by omega)

/-- The number whose digits to base `2^n` are `vs`, the first most significant. -/
def positional {n : Nat} (vs : List (BitVec n)) : Nat := Nat.ofDigits (2 ^ n) (vs.map BitVec.toNat).reverse

theorem positional_cons {n : Nat} (v : BitVec n) (vs : List (BitVec n)) :
    positional (v :: vs) = positional vs + (2 ^ n) ^ vs.length * v.toNat := by
  rw [positional, List.map_cons, Nat.ofDigits_reverse_cons, List.length_map, positional]

theorem positional_lt {n : Nat} (hn : 0 < n) (vs : List (BitVec n)) : positional vs < (2 ^ n) ^ vs.length := by
  have hdigits : ∀ x ∈ (vs.map BitVec.toNat).reverse, x < 2 ^ n := by
    simp only [List.mem_reverse, List.forall_mem_map]
    exact fun v _ => v.isLt
  have hlt := Nat.ofDigits_lt_base_pow_length (Nat.one_lt_two_pow hn.ne') hdigits
  rwa [List.length_reverse, List.length_map] at hlt

/-- Numbers with equally many digits are ordered as their digits are. -/
theorem positional_lt_iff_lex {n : Nat} (hn : 0 < n) {vs ws : List (BitVec n)} (hlen : vs.length = ws.length) :
    positional vs < positional ws ↔ List.Lex (fun v w => v.toNat < w.toNat) vs ws := by
  induction vs generalizing ws with
  | nil =>
    obtain rfl := List.length_eq_zero_iff.mp hlen.symm
    exact iff_of_false (lt_irrefl _) List.not_lex_nil
  | cons v vs ih =>
    cases ws with
    | nil => cases hlen
    | cons w ws =>
      have hlen' : vs.length = ws.length := Nat.succ.inj hlen
      have hvlt := positional_lt hn vs
      have hwlt := positional_lt hn ws
      rw [hlen'] at hvlt
      rw [positional_cons, positional_cons, hlen', mul_add_lt_mul_add_iff hvlt hwlt, ih hlen',
        List.cons_lex_cons_iff, BitVec.toNat_inj]

/-- An injective map that carries one order into the other carries their lexicographic orders. -/
theorem lex_map_iff {α β : Type} {r : α → α → Prop} {q : β → β → Prop} {f : α → β}
    (hinj : ∀ x y, f x = f y → x = y) (horder : ∀ x y, q (f x) (f y) ↔ r x y) {xs ys : List α}
    (hlen : xs.length = ys.length) : List.Lex q (xs.map f) (ys.map f) ↔ List.Lex r xs ys := by
  induction xs generalizing ys with
  | nil =>
    obtain rfl := List.length_eq_zero_iff.mp hlen.symm
    exact iff_of_false List.not_lex_nil List.not_lex_nil
  | cons x xs ih =>
    cases ys with
    | nil => cases hlen
    | cons y ys =>
      have heq : f x = f y ↔ x = y := ⟨hinj x y, congrArg f⟩
      rw [List.map_cons, List.map_cons, List.cons_lex_cons_iff, List.cons_lex_cons_iff, heq, horder,
        ih (Nat.succ.inj hlen)]

theorem digitsValue_eq_positional (vs : List (BitVec 4)) : digitsValue vs = positional vs := by
  induction vs using List.reverseRecOn with
  | nil => rfl
  | append_singleton vs v ih =>
    rw [digitsValue_append, ih, positional, positional, List.map_append, List.reverse_append,
      List.map_singleton, List.reverse_singleton, List.singleton_append, Nat.ofDigits_cons]
    omega

/-- The 64 digits of a word, most significant first. -/
def nibbles (p : Packed) : List (BitVec 4) := (List.range 64).map (nibble p)

theorem nibbles_length (p : Packed) : (nibbles p).length = 64 := by simp [nibbles]

theorem hexText_eq_map_nibbles (p : Packed) : hexText p = (nibbles p).map hexDigit := by
  simp [hexText, nibbles, hexLen]

theorem toNat_eq_positional_nibbles (p : Packed) : p.toNat = positional (nibbles p) := by
  have hlt := positional_lt (by decide) (nibbles p)
  rw [nibbles_length] at hlt
  calc p.toNat = (joinDigits (nibbles p)).toNat := congrArg BitVec.toNat (joinDigits_nibbles p).symm
    _ = positional (nibbles p) % 2 ^ 256 := by rw [joinDigits, BitVec.toNat_ofNat, digitsValue_eq_positional]
    _ = positional (nibbles p) := Nat.mod_eq_of_lt hlt

/-- The character codes of the sixteen digits increase with their values. -/
theorem hexDigit_lt_iff : ∀ v w : BitVec 4, (hexDigit v).toNat < (hexDigit w).toNat ↔ v.toNat < w.toNat := by
  decide

theorem hexDigit_inj : ∀ v w : BitVec 4, hexDigit v = hexDigit w → v = w := by decide

/-- The order of words is the lexicographic order of their hex texts. -/
theorem toNat_lt_iff_hexText_lex (p q : Packed) :
    p.toNat < q.toNat ↔ List.Lex (fun x y : Byte => x.toNat < y.toNat) (hexText p) (hexText q) := by
  have hlen : (nibbles p).length = (nibbles q).length := by rw [nibbles_length, nibbles_length]
  rw [toNat_eq_positional_nibbles p, toNat_eq_positional_nibbles q, positional_lt_iff_lex (by decide) hlen,
    hexText_eq_map_nibbles, hexText_eq_map_nibbles, lex_map_iff hexDigit_inj hexDigit_lt_iff hlen]

/-- The four fields of the packed word of an Address (spec/30_encoding.md R60). -/
def packedFields (c : Config) (a : Address) : List Field :=
  [a.frame, a.radius, latField c a.lat, lonField c a.lon]

theorem pack_toNat_eq_positional (c : Config) (a : Address) : (pack c a).toNat = positional (packedFields c a) := by
  rw [pack_toNat]
  simp only [packedFields, positional, List.map_cons, List.map_nil, List.reverse_cons, List.reverse_nil,
    List.nil_append, List.cons_append, Nat.ofDigits_cons, Nat.ofDigits_nil]
  omega

/-- The order of packed words is the lexicographic order of their fields, under either convention. -/
theorem pack_lt_iff_lex (c : Config) (a b : Address) : (pack c a).toNat < (pack c b).toNat ↔
    List.Lex (fun x y : Field => x.toNat < y.toNat) (packedFields c a) (packedFields c b) := by
  rw [pack_toNat_eq_positional, pack_toNat_eq_positional]
  exact positional_lt_iff_lex (by decide) rfl

/-- Under BIAS, for codes not below their ranges, the fields are ordered as the codes are. -/
theorem packedFields_lex_iff {c : Config} (h : c.signConv = .bias) {a b : Address}
    (halat : -90000000 ≤ sZ a.lat) (halon : -180000000 ≤ sZ a.lon)
    (hblat : -90000000 ≤ sZ b.lat) (hblon : -180000000 ≤ sZ b.lon) :
    List.Lex (fun x y : Field => x.toNat < y.toNat) (packedFields c a) (packedFields c b) ↔
      List.Lex (fun x y : Int => x < y) [uZ a.frame, uZ a.radius, sZ a.lat, sZ a.lon]
        [uZ b.frame, uZ b.radius, sZ b.lat, sZ b.lon] := by
  have hlat : (latField c a.lat).toNat < (latField c b.lat).toNat ↔ sZ a.lat < sZ b.lat :=
    codeField_lt_iff h (by decide) halat hblat
  have hlon : (lonField c a.lon).toNat < (lonField c b.lon).toNat ↔ sZ a.lon < sZ b.lon :=
    codeField_lt_iff h (by decide) halon hblon
  have hlateq : latField c a.lat = latField c b.lat ↔ a.lat = b.lat := (codeField_bijective c latBias).injective.eq_iff
  have hloneq : lonField c a.lon = lonField c b.lon ↔ a.lon = b.lon := (codeField_bijective c lonBias).injective.eq_iff
  simp only [packedFields, List.cons_lex_cons_iff, hlat, hlon, hlateq, hloneq, uZ, Int.ofNat_lt, Int.ofNat_inj,
    BitVec.toNat_inj, BitVec.toInt_inj, List.not_lex_nil]

/-! The count a host presents (spec/30_encoding.md R57). -/

theorem presentUnits_of_le {n : Nat} (h : n ≤ 255) : presentUnits n = n := Nat.min_eq_left h

theorem le_presentUnits {n : Nat} (h : 52 ≤ n) : 52 ≤ presentUnits n := Nat.le_min.mpr ⟨h, by decide⟩

theorem unitsFit_presentUnits (n : Nat) : unitsFit (presentUnits n) = true :=
  decide_eq_true (Nat.lt_succ_of_le (Nat.min_le_right n 255))

/-- An operation with a count above 51, as `exec` delivers it. -/
theorem exec_units_out {i : Instr} {n : Nat} (hunits : unitsOf i = some n) (hn : 52 ≤ n) (s : State) :
    exec i s = .next (s.deliver (Results.error .precisionRange)) := by
  rw [exec_eq, opResults_units_out hunits hn]

/-- The presented count has the outcome of the count itself: the two differ above 255 only, where both are out of range. -/
theorem exec_presentUnits {form : Nat → Instr} (hform : ∀ n, unitsOf (form n) = some n) (s : State) (count : Nat) :
    exec (form (presentUnits count)) s = exec (form count) s := by
  obtain hle | hgt := le_or_gt count 255
  · rw [presentUnits_of_le hle]
  · have hout : 52 ≤ count := by omega
    rw [exec_units_out (hform _) (le_presentUnits hout), exec_units_out (hform _) hout]

/-! The Address form (spec/30_encoding.md R58). -/

/-- PACK delivers the packed word of port `a`. -/
theorem pack_of_exec_pack {s t : State} {p : Packed} (hexec : exec .pack s = .next t) (hp : t.out.rp = some p) :
    p = pack s.cfg s.inp.a := by
  rw [exec_next hexec] at hp
  exact (Option.some.inj hp).symm

/-- Two operations with the same results deliver the same. -/
theorem exec_out_eq {i j : Instr} {s s' : State} (h : opResults s.cfg s.inp i = opResults s'.cfg s'.inp j) :
    ∃ t t', exec i s = .next t ∧ exec j s' = .next t' ∧ t.out = t'.out :=
  ⟨_, _, exec_eq i s, exec_eq j s', h⟩

/-! The statements of spec/30_encoding.md about values. -/

/-- Settles O22: the field maps have inverses, and the biased sum leaves the range of a field only below the bias. -/
theorem biasWrapsOnlyBelowTheRange : Obligations.BiasWrapsOnlyBelowTheRange :=
  ⟨fun c => ⟨codeField_bijective c latBias, codeField_bijective c lonBias⟩,
    fun _ _ h hcode => uZ_codeField_of_ge h (by decide) hcode,
    fun _ _ h hcode => uZ_codeField_of_lt h hcode,
    fun _ _ h hcode => uZ_codeField_of_ge h (by decide) hcode,
    fun _ _ h hcode => uZ_codeField_of_lt h hcode⟩

/-- Settles O30: a packed word is a number whose digits are the text's digits to base 16, and the fields to base `2^64`. -/
theorem packedOrderIsTextOrder : Obligations.PackedOrderIsTextOrder := by
  refine ⟨?texts, ?fields, ?bitcast⟩
  case texts =>
    intro s1 s2 t1 t2 c1 c2 hcfg hexec1 hexec2 hrt1 hrt2
    rw [exec_next hexec1] at hrt1
    rw [exec_next hexec2] at hrt2
    obtain rfl := Option.some.inj hrt1
    obtain rfl := Option.some.inj hrt2
    rw [Int.ofNat_lt]
    exact toNat_lt_iff_hexText_lex _ _
  case fields =>
    intro c a b h halat halon hblat hblon
    rw [Int.ofNat_lt, pack_lt_iff_lex, packedFields_lex_iff h halat halon hblat hblon]
  case bitcast =>
    intro c x y h hx hy
    exact ⟨uZ_codeField_bitcast_lt h latBias hx hy, uZ_codeField_bitcast_lt h lonBias hx hy⟩

/-- Settles O46: the presented count fits its field, and a count is out of range exactly when the presented one is. -/
theorem presentedCountHasTheSameOutcome : Obligations.PresentedCountHasTheSameOutcome := by
  refine ⟨?outOfRange, ?anyCount⟩
  case outOfRange =>
    intro s count i hcount hi
    obtain ⟨hunits, hwf⟩ : unitsOf i = some (presentUnits count) ∧ WellFormed i = true := by
      simp only [List.mem_cons, List.not_mem_nil, or_false] at hi
      obtain rfl | rfl | rfl | rfl | rfl | rfl := hi <;> exact ⟨rfl, unitsFit_presentUnits count⟩
    exact ⟨decode_encode hwf, exec_units_out hunits (le_presentUnits hcount) s⟩
  case anyCount =>
    intro s count
    refine ⟨?_, ?_, ?_, ?_, ?_, ?_⟩ <;> exact exec_presentUnits (fun _ => rfl) s count

/-- Settles O50: with the packed words of `a` and `b` on `p` and `q` the two forms have the same results. -/
theorem addressFormPacksFirst : Obligations.AddressFormPacksFirst := by
  intro s sb s' ta tb n hcfg hcfgb hb hexeca hp hexecb hq
  have hp' : s'.inp.p = pack s.cfg s.inp.a := pack_of_exec_pack hexeca hp
  have hq' : s'.inp.q = pack s.cfg s.inp.b := by rw [pack_of_exec_pack hexecb hq, hcfgb, hb]
  refine ⟨exec_out_eq ?_, exec_out_eq ?_, exec_out_eq ?_⟩ <;> simp only [opResults, hcfg, hp', hq']

end Sys2Proof.Machine

/-! SUPPORT. The Coordinate Codec: what each of its operations delivers, and the round trips through a host (spec/40_codec.md R81 to R103). -/

namespace Sys2Proof.Machine

/-! Raw values and Addresses (spec/40_codec.md R81, R84). -/

theorem ra_of_exec_enc {s t : State} (hexec : exec .enc s = .next t) : t.out.ra = some (addressOfX s) := by
  rw [exec_next hexec]
  rfl

theorem y_of_exec_dec {s t : State} (hexec : exec .dec s = .next t) : t.out.y = some (rawOfA s) := by
  rw [exec_next hexec]
  rfl

/-- With the Address of port `x` on port `a`, the raw values of `a` are those of `x`. -/
theorem rawOfA_of_eq_addressOfX {s s' : State} (h : addressOfX s = s'.inp.a) : rawOfA s' = s.inp.x := by
  rw [rawOfA, ← h]
  rfl

/-- With the raw values of port `a` on port `x`, the Address of `x` is the one on `a`. -/
theorem addressOfX_of_eq_rawOfA {s s' : State} (h : rawOfA s = s'.inp.x) : addressOfX s' = s.inp.a := by
  rw [addressOfX, ← h]
  rfl

/-! The packed word under two sign conventions (spec/40_codec.md R91). -/

theorem ra_of_exec_unpack {s t : State} (hexec : exec .unpack s = .next t) :
    t.out.ra = some (unpack s.cfg s.inp.p) := by
  rw [exec_next hexec]
  rfl

theorem unpack_pack_of_signConv_eq {c c' : Config} (h : c.signConv = c'.signConv) (a : Address) :
    unpack c' (pack c a) = a := by
  rw [pack_congr h, unpack_pack]

theorem pack_unpack_of_signConv_eq {c c' : Config} (h : c.signConv = c'.signConv) (p : Packed) :
    pack c' (unpack c p) = p := by
  rw [unpack_congr h, pack_unpack]

/-- A biased field, as the bits of the biased code. -/
theorem codeField_bias {c : Config} (h : c.signConv = .bias) (b : Nat) (x : Field) :
    codeField c b x = bitsN 64 (sZ x + b) := by
  rw [codeField, h]

/-- A word packed under BIAS and unpacked under BITCAST has its codes too large by the biases. -/
theorem unpack_bitcast_pack_bias {c c' : Config} (hc : c.signConv = .bias) (hc' : c'.signConv = .bitcast)
    (a : Address) : unpack c' (pack c a) =
      ⟨a.frame, a.radius, bitsN 64 (sZ a.lat + latBias), bitsN 64 (sZ a.lon + lonBias)⟩ := by
  apply Address_ext
  · exact pack_frame c a
  · exact pack_radius c a
  · simp only [unpack, fieldCode_bitcast hc', pack_lat, latField, codeField_bias hc]
  · simp only [unpack, fieldCode_bitcast hc', pack_lon, lonField, codeField_bias hc]

/-! The hex text (spec/40_codec.md R94, R96, R100, R101). -/

theorem rt_of_exec_tohex {s t : State} (hexec : exec .tohex s = .next t) :
    t.out.rt = some (hexText (pack s.cfg s.inp.a)) ∧ t.out.rtlen = some 64 := by
  rw [exec_next hexec]
  simp [opResults]

/-- FROMHEX of a text that spells a word. -/
theorem exec_fromhex_of_parseHex {s : State} {w : Packed} (h : parseHex s.cfg s.inp.t s.inp.tlen = some w) :
    exec .fromhex s = .next (s.deliver (Results.okAddress (unpack s.cfg w))) := by
  simp only [exec_eq, opResults, h]

/-- FROMHEX of a text that spells none. -/
theorem exec_fromhex_of_parseHex_none {s : State} (h : parseHex s.cfg s.inp.t s.inp.tlen = none) :
    exec .fromhex s = .next (s.deliver (Results.error .parseError)) := by
  simp only [exec_eq, opResults, h]

/-- FROMHEX delivers an Address only of a text that spells a word. -/
theorem parseHex_of_exec_fromhex {s t : State} {a : Address} (hexec : exec .fromhex s = .next t)
    (hra : t.out.ra = some a) :
    ∃ w, parseHex s.cfg s.inp.t s.inp.tlen = some w ∧ unpack s.cfg w = a := by
  cases hparse : parseHex s.cfg s.inp.t s.inp.tlen with
  | some w =>
    obtain rfl := Host.Outcome.next.inj ((exec_fromhex_of_parseHex hparse).symm.trans hexec)
    exact ⟨w, rfl, Option.some.inj hra⟩
  | none =>
    obtain rfl := Host.Outcome.next.inj ((exec_fromhex_of_parseHex_none hparse).symm.trans hexec)
    cases hra

/-- Which texts spell no word, by their length and their cells. -/
theorem parseHex_eq_none_iff (c : Config) (t : Vector Byte 64) (tlen : BitVec 8) :
    parseHex c t tlen = none ↔ tlen.toNat ≠ 64 ∨ ∃ cell ∈ t.toList, isHexCell c cell = false := by
  rw [parseHex_none]
  simp only [← hexVal_isSome, Option.isSome_eq_false_iff, Option.isNone_iff_eq_none]

/-- Each cell of a text, in lower case, is the character of its digit in the word the text spells. -/
theorem lowerCell_of_parseHex {c : Config} {t : Vector Byte 64} {tlen : BitVec 8} {w : Packed}
    (h : parseHex c t tlen = some w) {i : Nat} (hi : i < 64) :
    ∃ cell, t.toList[i]? = some cell ∧
      hexAlphabet[w.toNat / 2 ^ (252 - 4 * i) % 16]? = some (lowerCell cell).toNat := by
  have hcell : some (hexDigit (nibble w i)) = t.toList[i]?.map lowerCell := by
    rw [← hexText_getElem? w i hi, parseHex_some h, List.getElem?_map]
  obtain ⟨cell, hget, hlower⟩ := Option.map_eq_some_iff.mp hcell.symm
  exact ⟨cell, hget, by rw [← nibble_toNat, ← hexDigit_alphabet, hlower]⟩

theorem lowerCell_eq_self {cell : Byte} (h : cell.toNat < 0x41 ∨ 0x46 < cell.toNat) : lowerCell cell = cell :=
  if_neg (by omega)

/-- A text without upper-case digits is its own lower-case spelling. -/
theorem map_lowerCell_eq_self {cells : List Byte}
    (h : ∀ cell ∈ cells, cell.toNat < 0x41 ∨ 0x46 < cell.toNat) : cells.map lowerCell = cells :=
  (List.map_congr_left fun cell hcell => lowerCell_eq_self (h cell hcell)).trans (List.map_id cells)

/-! The statements of spec/40_codec.md. -/

/-- Settles O20: the host carries the four values, which neither operation alters. -/
theorem encAndDecRoundTrip : Obligations.EncAndDecRoundTrip := by
  constructor
  · intro s1 s2 t1 hexec hra
    have ha : addressOfX s1 = s2.inp.a := Option.some.inj ((ra_of_exec_enc hexec).symm.trans hra)
    exact ⟨_, exec_eq _ _, congrArg some (rawOfA_of_eq_addressOfX ha)⟩
  · intro s1 s2 t1 hexec hy
    have hx : rawOfA s1 = s2.inp.x := Option.some.inj ((y_of_exec_dec hexec).symm.trans hy)
    exact ⟨_, exec_eq _ _, congrArg some (addressOfX_of_eq_rawOfA hx)⟩

/-- Settles O21: the four slices of a packed word are its fields, and a field is its code with the bias or the code's own pattern. -/
theorem packLaysOutTheFields : Obligations.PackLaysOutTheFields := by
  refine ⟨rfl, fun s => ⟨_, exec_eq .pack s, congrArg uZ (pack_frame s.cfg s.inp.a),
    congrArg uZ (pack_radius s.cfg s.inp.a), fun hbias => ⟨?biasLat, ?biasLon⟩, fun hcast => ⟨?castLat, ?castLon⟩⟩⟩
  case biasLat => exact (congrArg uZ (pack_lat s.cfg s.inp.a)).trans (uZ_codeField_bias hbias latBias _)
  case biasLon => exact (congrArg uZ (pack_lon s.cfg s.inp.a)).trans (uZ_codeField_bias hbias lonBias _)
  case castLat =>
    have hfield := (pack_lat s.cfg s.inp.a).trans (codeField_bitcast hcast latBias _)
    exact (congrArg uZ hfield).trans (sZ_emod _).symm
  case castLon =>
    have hfield := (pack_lon s.cfg s.inp.a).trans (codeField_bitcast hcast lonBias _)
    exact (congrArg uZ hfield).trans (sZ_emod _).symm

/-- Settles O23: the Address of a word has the word's two upper slices, and a code is its field less the bias or the field itself. -/
theorem unpackReadsTheFields : Obligations.UnpackReadsTheFields :=
  ⟨rfl, fun s => ⟨_, exec_eq .unpack s, rfl, rfl,
    fun hbias => ⟨uZ_fieldCode_bias hbias latBias _, uZ_fieldCode_bias hbias lonBias _⟩,
    fun hcast => ⟨congrArg uZ (fieldCode_bitcast hcast latBias _), congrArg uZ (fieldCode_bitcast hcast lonBias _)⟩⟩⟩

/-- Settles O24: under one convention the field maps undo each other; from BIAS to BITCAST the biases stay in the codes. -/
theorem packAndUnpackRoundTrip : Obligations.PackAndUnpackRoundTrip := by
  refine ⟨?packed, ?unpacked, ?across⟩
  case packed =>
    intro s1 s2 t1 hconv hexec hrp
    have hp : s2.inp.p = pack s1.cfg s1.inp.a := pack_of_exec_pack hexec hrp
    refine ⟨_, exec_eq _ _, congrArg some ?_⟩
    rw [hp, unpack_pack_of_signConv_eq hconv]
  case unpacked =>
    intro s1 s2 t1 hconv hexec hra
    have ha : unpack s1.cfg s1.inp.p = s2.inp.a := Option.some.inj ((ra_of_exec_unpack hexec).symm.trans hra)
    refine ⟨_, exec_eq _ _, congrArg some ?_⟩
    rw [← ha, pack_unpack_of_signConv_eq hconv]
  case across =>
    intro s1 s2 t1 hbias hcast hexec hrp
    have hp : s2.inp.p = pack s1.cfg s1.inp.a := pack_of_exec_pack hexec hrp
    refine ⟨_, exec_eq _ _, congrArg some ?_⟩
    rw [hp]
    exact unpack_bitcast_pack_bias hbias hcast _

/-- Settles O25: the text has 64 cells, each the alphabet's character for its digit of the packed word. -/
theorem toHexWritesTheDigits : Obligations.ToHexWritesTheDigits := by
  refine fun s => ⟨hexText (pack s.cfg s.inp.a), ?delivers, hexText_length _, fun i hi => ?cell⟩
  case delivers =>
    rw [exec_eq, opResults, Results.okText, hexText_length]
    rfl
  case cell => rw [hexText_alphabet _ hi, nibble_toNat]

/-- Settles O27: a text of 64 hex digits spells a word, whose digits are the cells in lower case; no other text does. -/
theorem fromHexAcceptsExactlyTheHexTexts : Obligations.FromHexAcceptsExactlyTheHexTexts := by
  constructor
  · intro s hlen hcells
    obtain ⟨w, hparse⟩ := Option.ne_none_iff_exists'.mp ((parseHex_ne_none_iff s.cfg _ _).mpr ⟨hlen, hcells⟩)
    exact ⟨w, exec_fromhex_of_parseHex hparse, fun i hi => lowerCell_of_parseHex hparse hi⟩
  · intro s hbad
    exact exec_fromhex_of_parseHex_none ((parseHex_eq_none_iff s.cfg _ _).mpr hbad)

/-- Settles O28: the text of a word spells that word, and the word a text spells is written as the text in lower case. -/
theorem hexTextRoundTrips : Obligations.HexTextRoundTrips := by
  constructor
  · intro s1 s2 t1 hconv hexec hrt hrtlen
    obtain ⟨hcells, hlen⟩ := rt_of_exec_tohex hexec
    have ht : s2.inp.t.toList = hexText (pack s1.cfg s1.inp.a) := Option.some.inj (hrt.symm.trans hcells)
    have htlen : s2.inp.tlen = 64 := Option.some.inj (hrtlen.symm.trans hlen)
    have hparse := parseHex_hexText s2.cfg _ s2.inp.t s2.inp.tlen ht (congrArg BitVec.toNat htlen)
    refine ⟨_, exec_fromhex_of_parseHex hparse, rfl, congrArg some ?_⟩
    rw [unpack_pack_of_signConv_eq hconv]
  · intro s1 s2 t1 hconv hexec hra
    obtain ⟨w, hparse, ha⟩ := parseHex_of_exec_fromhex hexec hra
    have hrt : hexText (pack s2.cfg s2.inp.a) = s1.inp.t.toList.map lowerCell := by
      rw [← ha, pack_unpack_of_signConv_eq hconv, parseHex_some hparse]
    exact ⟨_, exec_eq _ _, congrArg some hrt,
      fun hlower => congrArg some (hrt.trans (map_lowerCell_eq_self hlower))⟩

/-- Settles O18: ENC delivers the wiring of port `x`. -/
theorem encCopiesTheRawValues : Obligations.EncCopiesTheRawValues :=
  ⟨rfl, fun s => exec_eq .enc s⟩

/-- Settles O19: DEC delivers the wiring of port `a`. -/
theorem decGivesTheRawValues : Obligations.DecGivesTheRawValues :=
  ⟨rfl, fun s => exec_eq .dec s⟩

end Sys2Proof.Machine

/-! SUPPORT. The Delta Arithmetic: the radius, the pole loop and the longitude of APPLY, and the difference of SUB (spec/41_delta.md R112 to R127). -/

namespace Sys2Proof.Machine

/-! The radius (spec/41_delta.md R113). -/

/-- The radius APPLY delivers for an exact sum, as an integer. -/
def radiusValue (c : Config) (sum : Int) : Int :=
  if sum < 0 then 0
  else if fieldMax < sum then (if c.radiusHigh = .saturate then fieldMax else sum % 2 ^ 64)
  else sum

theorem fieldMax_eq : fieldMax = 2 ^ 64 - 1 := rfl

theorem bitsN_emod (n : Nat) (z : Int) : bitsN n (z % 2 ^ n) = bitsN n z := by
  apply eq_of_uZ_eq
  rw [uZ_bitsN, uZ_bitsN, Int.emod_emod]

theorem applyRadius_eq (c : Config) (r : Field) (dr : DeltaField) :
    applyRadius c r dr = bitsN 64 (radiusValue c (uZ r + sZ dr)) := by
  simp only [applyRadius, radiusValue]
  cases c.radiusHigh with
  | saturate =>
    rw [if_pos rfl]
    split_ifs <;> rfl
  | wrap =>
    rw [if_neg (by decide : ¬ RadiusHigh.wrap = .saturate)]
    split_ifs with hneg habove
    · rfl
    · exact (bitsN_emod 64 _).symm
    · rfl

theorem radiusValue_range (c : Config) (sum : Int) : 0 ≤ radiusValue c sum ∧ radiusValue c sum < 2 ^ 64 := by
  unfold radiusValue
  rw [fieldMax_eq]
  split_ifs <;> omega

theorem uZ_applyDelta_radius (c : Config) (a : Address) (d : Delta) :
    uZ (applyDelta c a d).radius = radiusValue c (uZ a.radius + sZ d.dr) := by
  obtain ⟨hlow, hhigh⟩ := radiusValue_range c (uZ a.radius + sZ d.dr)
  rw [applyDelta_radius, applyRadius_eq, uZ_bitsN_field hlow hhigh]

/-! The pole loop (spec/41_delta.md R115, R116, R117). -/

/-- A loop that ended inside the range gives the reflected latitude and half a turn of longitude for each crossing. -/
theorem poleLoop_of_inside {turns : Nat} {x z : Int} (h : |(poleLoop turns (x, z)).1| ≤ 90000000) :
    poleLoop turns (x, z) = (reflectLat x, z + 180000000 * crossings x) :=
  poleLoop_enough turns x z (crossings_le_of_inside h)

theorem normaliseByLoop_of_inside {turns : Nat} {x z : Int} (h : |(poleLoop turns (x, z)).1| ≤ 90000000) :
    normaliseByLoop turns x z = normalise x z := by
  simp only [normaliseByLoop, poleLoop_of_inside h, clampLat_inside (reflectLat_range x), normalise_eq]

theorem poleLoop_crossings_inside (x z : Int) : |(poleLoop (crossings x) (x, z)).1| ≤ 90000000 := by
  rw [poleLoop_enough _ x z le_rfl]
  exact reflectLat_range x

theorem abs_turnedLat_le {x : Int} (h : 90000000 < |x|) : |turnedLat x| ≤ |x| := by
  rw [← Int.natCast_natAbs] at h
  rw [← Int.natCast_natAbs, ← Int.natCast_natAbs, turnedLat]
  split <;> omega

/-- No turn takes the latitude further out, and the longitude grows by at most half a turn for each crossing. -/
theorem poleLoop_bounds (turns : Nat) (x z : Int) :
    |(poleLoop turns (x, z)).1| ≤ |x| ∧ z ≤ (poleLoop turns (x, z)).2 ∧
      (poleLoop turns (x, z)).2 ≤ z + 180000000 * crossings x := by
  induction turns generalizing x z with
  | zero => exact ⟨le_rfl, le_rfl, Int.le_add_of_nonneg_right (by omega)⟩
  | succ turns ih =>
    rw [poleLoop_succ]
    split
    next hout =>
      obtain ⟨hlat, hlow, hhigh⟩ := ih (turnedLat x) (z + 180000000)
      have hk := crossings_turnedLat hout
      exact ⟨hlat.trans (abs_turnedLat_le hout), by omega, by omega⟩
    next => exact ⟨le_rfl, le_rfl, Int.le_add_of_nonneg_right (by omega)⟩

theorem crossings_bound (x : Int) : 180000000 * (crossings x : Int) ≤ |x| + 90000000 := by
  rw [crossings_eq, ← Int.natCast_natAbs]
  omega

/-- The reflected latitude is a triangle wave of period 360 000 000 (spec/41_delta.md R116). -/
theorem reflectLat_eq_triangleWave (x : Int) :
    reflectLat x = 90000000 - |(x + 90000000) % 360000000 - 180000000| := by
  rw [reflectLat_eq, crossings_eq, ← Int.natCast_natAbs]
  split <;> omega

/-- Between one pole and the next there is one crossing, which reflects at the pole that was passed (spec/41_delta.md R120). -/
theorem one_crossing {x : Int} (hout : 90000000 < |x|) (hnear : |x| ≤ 270000000) :
    crossings x = 1 ∧ reflectLat x = turnedLat x := by
  have hinside : |turnedLat x| ≤ 90000000 := by
    rw [lt_abs] at hout
    rw [abs_le] at hnear ⊢
    unfold turnedLat
    split <;> omega
  constructor
  · rw [← crossings_turnedLat hout, (crossings_eq_zero _).mpr hinside]
  · rw [← reflectLat_turnedLat hout, reflectLat_inside hinside]

/-! What APPLY delivers (spec/41_delta.md R112, R118, R119). -/

theorem applyDelta_of_loop_inside (c : Config) (a : Address) (d : Delta) {turns : Nat}
    (h : |(poleLoop turns (sZ a.lat + sZ d.dlat, sZ a.lon + sZ d.dlon)).1| ≤ 90000000) :
    applyDelta c a d = ⟨a.frame, bitsN 64 (radiusValue c (uZ a.radius + sZ d.dr)),
      bitsN 64 (normaliseByLoop turns (sZ a.lat + sZ d.dlat) (sZ a.lon + sZ d.dlon)).1,
      bitsN 64 (normaliseByLoop turns (sZ a.lat + sZ d.dlat) (sZ a.lon + sZ d.dlon)).2⟩ := by
  rw [normaliseByLoop_of_inside h, ← applyRadius_eq]
  rfl

theorem validCodes_iff (a : Address) : validCodes a = true ↔
    |sZ a.lat| ≤ 90000000 ∧ -180000000 ≤ sZ a.lon ∧ sZ a.lon < 180000000 := by
  rw [abs_le, and_assoc]
  exact decide_eq_true_iff

theorem validCodes_applyDelta (c : Config) (a : Address) (d : Delta) : validCodes (applyDelta c a d) = true := by
  rw [validCodes_iff, applyDelta_lat, applyDelta_lon]
  exact ⟨reflectLat_range _, wrapLon_range _⟩

/-- An Address in the valid range that has the sums in its fields, the longitude up to whole turns, is what APPLY delivers. -/
theorem applyDelta_eq_of_sums {c : Config} {a b : Address} {d : Delta} (hvalid : validCodes b = true)
    (hframe : a.frame = b.frame) (hradius : uZ a.radius + sZ d.dr = uZ b.radius)
    (hlat : sZ a.lat + sZ d.dlat = sZ b.lat) (hlon : (sZ a.lon + sZ d.dlon - sZ b.lon) % 360000000 = 0) :
    applyDelta c a d = b := by
  obtain ⟨hlatIn, hlonLow, hlonHigh⟩ := (validCodes_iff b).mp hvalid
  apply Address_ext
  · exact hframe
  · apply eq_of_uZ_eq
    have hnonneg := uZ_nonneg b.radius
    have hlt := uZ_lt b.radius
    rw [applyDelta_radius, applyRadius_exact (by omega) (by omega), hradius]
  · refine BitVec.eq_of_toInt_eq (?_ : sZ _ = sZ _)
    rw [applyDelta_lat, hlat, reflectLat_inside hlatIn]
  · refine BitVec.eq_of_toInt_eq (?_ : sZ _ = sZ _)
    rw [applyDelta_lon, hlat, (crossings_eq_zero _).mpr hlatIn, wrapLon_congr (w := sZ b.lon) (by simpa using hlon),
      wrapLon_inside hlonLow hlonHigh]

/-- Without a Delta an Address in the valid range stays as it is (spec/41_delta.md R118). -/
theorem applyDelta_zero {a : Address} (hvalid : validCodes a = true) (c : Config) :
    applyDelta c a ⟨0, 0, 0⟩ = a :=
  applyDelta_eq_of_sums hvalid rfl (by simp) (by simp) (by simp)

/-- A difference applied to its second Address gives the first (spec/41_delta.md R127). -/
theorem applyDelta_addressDiff {a b : Address} (hvalid : validCodes a = true) (hframe : a.frame = b.frame)
    (c : Config) : applyDelta c b (addressDiff a b) = a :=
  applyDelta_eq_of_sums hvalid hframe.symm (by rw [addressDiff_dr]; omega) (by rw [addressDiff_dlat]; omega)
    (by rw [addressDiff_dlon]; simp)

/-- Where neither application meets a pole or an end of the radius, two make one (spec/41_delta.md R122). -/
theorem applyDelta_applyDelta {c : Config} {a : Address} {d1 d2 d3 : Delta}
    (hdr : sZ d3.dr = sZ d1.dr + sZ d2.dr) (hdlat : sZ d3.dlat = sZ d1.dlat + sZ d2.dlat)
    (hdlon : sZ d3.dlon = sZ d1.dlon + sZ d2.dlon)
    (hlat1 : |sZ a.lat + sZ d1.dlat| ≤ 90000000) (hlat2 : |sZ a.lat + sZ d1.dlat + sZ d2.dlat| ≤ 90000000)
    (hlow1 : 0 ≤ uZ a.radius + sZ d1.dr) (hhigh1 : uZ a.radius + sZ d1.dr ≤ 2 ^ 64 - 1)
    (hlow2 : 0 ≤ uZ a.radius + sZ d1.dr + sZ d2.dr) (hhigh2 : uZ a.radius + sZ d1.dr + sZ d2.dr ≤ 2 ^ 64 - 1) :
    applyDelta c a d3 = applyDelta c (applyDelta c a d1) d2 := by
  have hradius1 : uZ (applyDelta c a d1).radius = uZ a.radius + sZ d1.dr := applyRadius_exact hlow1 hhigh1
  have hsum1 : sZ (applyDelta c a d1).lat = sZ a.lat + sZ d1.dlat := by
    rw [applyDelta_lat, reflectLat_inside hlat1]
  refine applyDelta_eq_of_sums (a := a) (d := d3) (validCodes_applyDelta c (applyDelta c a d1) d2) rfl ?_ ?_ ?_
  · rw [applyDelta_radius, applyRadius_exact] <;> omega
  · rw [applyDelta_lat, hsum1, reflectLat_inside hlat2]; omega
  · rw [applyDelta_lon, applyDelta_lon, hsum1, (crossings_eq_zero _).mpr hlat1, (crossings_eq_zero _).mpr hlat2]
    have hturns1 := wrapLon_turns (sZ a.lon + sZ d1.dlon + 180000000 * (0 : Nat))
    have hturns2 := wrapLon_turns
      (wrapLon (sZ a.lon + sZ d1.dlon + 180000000 * (0 : Nat)) + sZ d2.dlon + 180000000 * (0 : Nat))
    omega

/-- One crossing reflects the latitude and turns the longitude by half a turn (spec/41_delta.md R120, R121). -/
theorem applyDelta_one_crossing (c : Config) {a : Address} {d : Delta} (hout : 90000000 < |sZ a.lat + sZ d.dlat|)
    (hnear : |sZ a.lat + sZ d.dlat| ≤ 270000000) :
    sZ (applyDelta c a d).lat = turnedLat (sZ a.lat + sZ d.dlat) ∧
      (sZ (applyDelta c a d).lon - (sZ a.lon + sZ d.dlon)) % 360000000 = 180000000 := by
  obtain ⟨hone, hlat⟩ := one_crossing hout hnear
  refine ⟨(applyDelta_lat c a d).trans hlat, ?_⟩
  rw [applyDelta_lon, hone]
  have hturns := wrapLon_turns (sZ a.lon + sZ d.dlon + 180000000 * (1 : Nat))
  omega

/-! SUB (spec/41_delta.md R125, R126). -/

theorem exec_sub_of_sameFrame {s : State} (h : s.inp.a.frame = s.inp.b.frame) :
    exec .sub s = .next (s.deliver (Results.okDelta (addressDiff s.inp.a s.inp.b))) := by
  simp only [exec_eq, opResults, if_pos h]

theorem exec_sub_of_crossFrame {s : State} (h : s.inp.a.frame ≠ s.inp.b.frame) :
    exec .sub s = .next (s.deliver (Results.error .crossFrame)) := by
  simp only [exec_eq, opResults, if_neg h]

/-! The statements of spec/41_delta.md. -/

/-- Settles O31: the closed form APPLY computes is the loop's result, and the loop ends after `crossings` turns. -/
theorem applyFollowsTheFiveSteps : Obligations.ApplyFollowsTheFiveSteps := by
  refine ⟨rfl, fun x z => ⟨crossings x, abs_le.mp (poleLoop_crossings_inside x z)⟩, ?_⟩
  intro s turns sum radius lat lon ended hlow hhigh
  rw [exec_eq, opResults, applyDelta_of_loop_inside s.cfg s.inp.a s.inp.d (abs_le.mpr ⟨hlow, hhigh⟩)]
  rfl

/-- Settles O32: the loop leaves the range in no turn from `crossings` on, and not before. -/
theorem poleLoopEndsInsideTheRange : Obligations.PoleLoopEndsInsideTheRange := by
  unfold Obligations.PoleLoopEndsInsideTheRange
  intro x z
  simp only [← crossings_eq]
  have hinside := poleLoop_crossings_inside x z
  refine ⟨fun more => ?_, fun j => poleLoop_early j x z, hinside, clampLat_inside hinside, ?_⟩
  · rw [poleLoop_enough _ x z (Nat.le_add_right _ more), poleLoop_of_inside hinside]
  · rw [poleLoop_of_inside hinside]

/-- Settles O33: a loop that ended inside the range has made every crossing. -/
theorem closedFormEqualsTheLoop : Obligations.ClosedFormEqualsTheLoop :=
  fun _ _ _ hlow hhigh => (normaliseByLoop_of_inside (abs_le.mpr ⟨hlow, hhigh⟩)).symm

/-- Settles O34: the reflected latitude and the wrapped longitude are in the valid range. -/
theorem applyDeliversANormalisedAddress : Obligations.ApplyDeliversANormalisedAddress := by
  constructor
  · intro s
    obtain ⟨hlat, hlonLow, hlonHigh⟩ := (validCodes_iff _).mp (validCodes_applyDelta s.cfg s.inp.a s.inp.d)
    obtain ⟨hlatLow, hlatHigh⟩ := abs_le.mp hlat
    exact ⟨_, exec_eq .apply s, rfl, hlatLow, hlatHigh, hlonLow, hlonHigh, uZ_nonneg _,
      Int.le_sub_one_of_lt (uZ_lt _)⟩
  · intro s hzero hvalid
    rw [exec_eq, opResults, hzero, applyDelta_zero hvalid]
    rfl

/-- Settles O35: the radius is `radiusValue` of the exact sum. -/
theorem applyRadiusFloorsAndSaturates : Obligations.ApplyRadiusFloorsAndSaturates := by
  intro s
  refine ⟨_, exec_eq .apply s, ?_⟩
  rw [uZ_applyDelta_radius, radiusValue, fieldMax_eq]
  refine ⟨fun hneg => if_pos hneg, fun hlow hhigh => ?_, fun habove hsat => ?_, fun habove hwrap => ?_⟩
  · rw [if_neg (by omega), if_neg (by omega)]
  · rw [if_neg (by omega), if_pos habove, if_pos hsat]
  · rw [if_neg (by omega), if_pos habove, if_neg (by simp [hwrap])]

/-- Settles O36: the reflected latitude is the triangle wave. -/
theorem applyLatitudeIsATriangleWave : Obligations.ApplyLatitudeIsATriangleWave := fun s =>
  ⟨_, exec_eq .apply s, (applyDelta_lat _ _ _).trans (reflectLat_eq_triangleWave _)⟩

/-- Settles O37: the longitude is the wrapped sum, half a turn added for each crossing. -/
theorem applyLongitudeTurnsAtEachPole : Obligations.ApplyLongitudeTurnsAtEachPole := by
  intro s
  refine ⟨_, exec_eq .apply s, ?_⟩
  rw [applyDelta_lon, ← crossings_eq]
  obtain ⟨hlow, hhigh⟩ := wrapLon_range
    (sZ s.inp.a.lon + sZ s.inp.d.dlon + 180000000 * crossings (sZ s.inp.a.lat + sZ s.inp.d.dlat))
  exact ⟨hlow, hhigh, wrapLon_turns _⟩

/-- Settles O38: between one pole and the next there is one crossing. -/
theorem onePoleCrossingReflects : Obligations.OnePoleCrossingReflects := by
  constructor
  · intro s hout hnear
    obtain ⟨hlat, hlon⟩ := applyDelta_one_crossing s.cfg (lt_abs.mpr (.inl hout)) (abs_le.mpr ⟨by omega, hnear⟩)
    exact ⟨_, exec_eq .apply s, hlat.trans (if_pos hout), hlon⟩
  · intro s hout hnear
    obtain ⟨hlat, hlon⟩ :=
      applyDelta_one_crossing s.cfg (lt_abs.mpr (.inr (by omega))) (abs_le.mpr ⟨hnear, by omega⟩)
    exact ⟨_, exec_eq .apply s, hlat.trans (if_neg (by omega)), hlon⟩

/-- Settles O39: the summed Delta and the two in turn give the same sums, the longitude up to whole turns. -/
theorem applyAddsWithoutReflection : Obligations.ApplyAddsWithoutReflection := by
  intro s1 s2 s3 t1 t2 hcfg2 hcfg3 ha hdr hdlat hdlon hlat1 hlat2 hlow1 hhigh1 hlow2 hhigh2 hexec1 hra hexec2
  rw [exec_next hexec1] at hra
  have ha2 : applyDelta s1.cfg s1.inp.a s1.inp.d = s2.inp.a := Option.some.inj hra
  refine ⟨_, exec_eq .apply s3, ?_⟩
  rw [exec_next hexec2, deliver_out, deliver_out, opResults, opResults, hcfg2, hcfg3, ha, ← ha2,
    applyDelta_applyDelta hdr hdlat hdlon hlat1 hlat2 hlow1 hhigh1 hlow2 hhigh2]

/-- Settles O40: no turn takes the latitude further out, and the crossings add to the longitude at most the size of the latitude sum and a pole. -/
theorem smallDeltasNeedOnly128Bits : Obligations.SmallDeltasNeedOnly128Bits := by
  intro a d hdr hdlat hdlon
  have hlat := sZ_field_range a.lat
  have hlon := sZ_field_range a.lon
  have hradius0 := uZ_nonneg a.radius
  have hradius := uZ_lt a.radius
  rw [abs_le] at hdr hdlat hdlon
  refine ⟨abs_lt.mpr (by omega), fun turns => ?_⟩
  have hsum : |sZ a.lat + sZ d.dlat| ≤ 2 ^ 63 + 2 ^ 125 := abs_le.mpr (by omega)
  obtain ⟨hcloser, hlonLow, hlonHigh⟩ := poleLoop_bounds turns (sZ a.lat + sZ d.dlat) (sZ a.lon + sZ d.dlon)
  have hcrossings := crossings_bound (sZ a.lat + sZ d.dlat)
  refine ⟨by omega, ?_⟩
  rw [← lt_sub_iff_add_lt, abs_lt]
  omega

/-- Settles O41: the differences fit the Delta fields. -/
theorem subIsTheFieldwiseDifference : Obligations.SubIsTheFieldwiseDifference :=
  ⟨rfl,
    fun _ hframe => ⟨_, exec_sub_of_sameFrame hframe, addressDiff_dr _ _, addressDiff_dlat _ _, addressDiff_dlon _ _⟩,
    fun _ hframe => exec_sub_of_crossFrame hframe⟩

/-- Settles O42: the sums of `b` and the difference are the fields of `a`. -/
theorem applyUndoesSub : Obligations.ApplyUndoesSub := by
  intro s1 s2 t1 hframe hvalid hexec hrd hb
  obtain rfl := Host.Outcome.next.inj ((exec_sub_of_sameFrame hframe).symm.trans hexec)
  have hd : addressDiff s1.inp.a s1.inp.b = s2.inp.d := Option.some.inj hrd
  refine ⟨_, exec_eq .apply s2, ?_⟩
  rw [deliver_out, opResults, okAddress_ra, hb, ← hd, applyDelta_addressDiff hvalid hframe]

end Sys2Proof.Machine

/-! SUPPORT. The Tolerance Comparator: what its operations deliver for a count in range, which bits EQW sees, and the SNAP token (spec/42_comparator.md R136 to R154). -/

namespace Sys2Proof.Machine

/-! What an operation with a count in range delivers (spec/42_comparator.md R141). -/

/-- A count in range leaves the operation's own results. -/
theorem exec_units_in {i : Instr} {n : Nat} {r : Results} {s : State} (hn : n ≤ 51)
    (hresults : opResults s.cfg s.inp i = unitsResults n r) : exec i s = .next (s.deliver r) := by
  rw [exec_eq, hresults, unitsResults_in hn]

theorem exec_truncA {n : Nat} (hn : n ≤ 51) (s : State) : exec (.truncA n) s =
    .next (s.deliver (Results.okPacked (truncWord (pack s.cfg s.inp.a) n))) := exec_units_in hn rfl

theorem exec_truncP {n : Nat} (hn : n ≤ 51) (s : State) : exec (.truncP n) s =
    .next (s.deliver (Results.okPacked (truncWord s.inp.p n))) := exec_units_in hn rfl

theorem exec_eqwA {n : Nat} (hn : n ≤ 51) (s : State) : exec (.eqwA n) s =
    .next (s.deliver (Results.okFlag (equalWithin (pack s.cfg s.inp.a) (pack s.cfg s.inp.b) n))) :=
  exec_units_in hn rfl

theorem exec_eqwP {n : Nat} (hn : n ≤ 51) (s : State) : exec (.eqwP n) s =
    .next (s.deliver (Results.okFlag (equalWithin s.inp.p s.inp.q n))) := exec_units_in hn rfl

theorem exec_snapA {n : Nat} (hn : n ≤ 51) (s : State) : exec (.snapA n) s =
    .next (s.deliver (Results.okText (snapText s.cfg (pack s.cfg s.inp.a) n))) := exec_units_in hn rfl

theorem exec_snapP {n : Nat} (hn : n ≤ 51) (s : State) : exec (.snapP n) s =
    .next (s.deliver (Results.okText (snapText s.cfg s.inp.p n))) := exec_units_in hn rfl

theorem rp_of_exec_truncP {n : Nat} (hn : n ≤ 51) {s t : State} (hexec : exec (.truncP n) s = .next t) :
    t.out.rp = some (truncWord s.inp.p n) := by
  obtain rfl := Host.Outcome.next.inj ((exec_truncP hn s).symm.trans hexec)
  rfl

theorem rf_of_exec_eqwA {n : Nat} (hn : n ≤ 51) {s t : State} (hexec : exec (.eqwA n) s = .next t) :
    t.out.rf = some (equalWithin (pack s.cfg s.inp.a) (pack s.cfg s.inp.b) n) := by
  obtain rfl := Host.Outcome.next.inj ((exec_eqwA hn s).symm.trans hexec)
  rfl

theorem rf_of_exec_eqwP {n : Nat} (hn : n ≤ 51) {s t : State} (hexec : exec (.eqwP n) s = .next t) :
    t.out.rf = some (equalWithin s.inp.p s.inp.q n) := by
  obtain rfl := Host.Outcome.next.inj ((exec_eqwP hn s).symm.trans hexec)
  rfl

theorem rt_of_exec_snapA {n : Nat} (hn : n ≤ 51) {s t : State} (hexec : exec (.snapA n) s = .next t) :
    t.out.rt = some (snapText s.cfg (pack s.cfg s.inp.a) n) := by
  obtain rfl := Host.Outcome.next.inj ((exec_snapA hn s).symm.trans hexec)
  rfl

/-- An operation with a count of at most 51 ends with OK, whatever its operands. -/
theorem opResults_units_ok {i : Instr} {n : Nat} (hunits : unitsOf i = some n) (hn : n ≤ 51) (c : Config)
    (o : Operands) : (opResults c o i).status = some .ok := by
  cases i with
  | enc | dec | pack | unpack | tohex | fromhex | apply | sub | eq => cases hunits
  | truncA m | truncP m | eqwA m | eqwP m | snapA m | snapP m =>
    obtain rfl := Option.some.inj hunits
    exact congrArg Results.status (unitsResults_in hn _)

/-! Exact equality (spec/42_comparator.md R136). -/

theorem Address_eq_iff {a b : Address} :
    a = b ↔ a.frame = b.frame ∧ a.radius = b.radius ∧ a.lat = b.lat ∧ a.lon = b.lon :=
  ⟨fun h => h ▸ ⟨rfl, rfl, rfl, rfl⟩, fun ⟨hf, hr, hlat, hlon⟩ => Address_ext hf hr hlat hlon⟩

theorem pack_eq_iff (c : Config) {a b : Address} : pack c a = pack c b ↔ a = b :=
  ⟨pack_inj c, congrArg (pack c)⟩

/-! Which bits EQW compares (spec/42_comparator.md R142, R147 to R151). -/

theorem equalWithin_iff_bits (p q : Packed) (n : Nat) : equalWithin p q n = true ↔
    ∀ k, k < 256 → 256 - 5 * n ≤ k → p.getLsbD k = q.getLsbD k :=
  (equalWithin_iff p q n).trans (truncWord_eq_iff p q n)

/-- The coarser truncation is a truncation of the finer one, so a match is kept (spec/42_comparator.md R149). -/
theorem equalWithin_of_le {p q : Packed} {n1 n2 : Nat} (hle : n1 ≤ n2) (h : equalWithin p q n2 = true) :
    equalWithin p q n1 = true := by
  rw [equalWithin_iff] at h ⊢
  rw [← min_eq_left hle, ← truncWord_truncWord, ← truncWord_truncWord, h]

/-- At 51 units the lowest bit alone is cleared (spec/42_comparator.md R150). -/
theorem equalWithin_finest_iff (p q : Packed) :
    equalWithin p q 51 = true ↔ p.toNat / 2 = q.toNat / 2 :=
  (equalWithin_iff p q 51).trans (truncWord_eq_iff_div p q 51)

/-- The top `m` bits of 256 are the top `m` bits of the uppermost `w`, when `m ≤ w`. -/
theorem forall_top_bits_iff {m w : Nat} (hm : m ≤ w) (hw : w ≤ 256) (P : Nat → Prop) :
    (∀ k, k < 256 → 256 - m ≤ k → P k) ↔ ∀ k, k < w → w - m ≤ k → P (256 - w + k) := by
  constructor
  · intro h k hk hmk
    exact h _ (by omega) (by omega)
  · intro h k hk hmk
    have hP := h (k - (256 - w)) (by omega) (by omega)
    rwa [Nat.add_sub_cancel' (by omega)] at hP

/-- Up to 12 units only the frame is compared. -/
theorem equalWithin_pack_iff_frame (c : Config) (a b : Address) {n : Nat} (hn : n ≤ 12) :
    equalWithin (pack c a) (pack c b) n = true ↔
      ∀ k, k < 64 → 64 - 5 * n ≤ k → a.frame.getLsbD k = b.frame.getLsbD k := by
  rw [equalWithin_iff_bits, forall_top_bits_iff (w := 64) (by omega) (by decide)]
  simp only [Nat.reduceSub, pack_frame_bit]

/-- Up to 25 units only frame and radius are compared. -/
theorem equalWithin_pack_iff_upper (c : Config) (a b : Address) {n : Nat} (hn : n ≤ 25) :
    equalWithin (pack c a) (pack c b) n = true ↔
      ∀ k, k < 128 → 128 - 5 * n ≤ k → (a.frame ++ a.radius).getLsbD k = (b.frame ++ b.radius).getLsbD k := by
  rw [equalWithin_iff_bits, forall_top_bits_iff (w := 128) (by omega) (by decide)]
  simp only [Nat.reduceSub, pack_upper_bit]

/-- Bit `m` is the highest bit in which two words differ. -/
def TopDifference {w : Nat} (x y : BitVec w) (m : Nat) : Prop :=
  x.getLsbD m ≠ y.getLsbD m ∧ ∀ k, k < w → m < k → x.getLsbD k = y.getLsbD k

/-- EQW answers 1 as long as the highest bit of difference is among those cleared. -/
theorem equalWithin_iff_of_topDifference {p q : Packed} {m : Nat} (hm : m < 256) (h : TopDifference p q m)
    (n : Nat) : equalWithin p q n = true ↔ m < 256 - 5 * n := by
  obtain ⟨hdiff, habove⟩ := h
  rw [equalWithin_iff_bits]
  constructor
  · intro hagree
    by_contra hkept
    exact hdiff (hagree m hm (by omega))
  · intro hcleared k hk hkept
    exact habove k hk (by omega)

/-- Bits 127 to 64 of the packed word are the latitude field (spec/30_encoding.md R60). -/
theorem pack_lat_bit (c : Config) (a : Address) {k : Nat} (hk : k < 64) :
    (pack c a).getLsbD (64 + k) = (latField c a.lat).getLsbD k := by
  rw [← pack_lat, BitVec.getLsbD_extractLsb', decide_eq_true hk, Bool.true_and]

/-- Of Addresses of one frame and radius the latitude fields decide the highest bit of difference. -/
theorem topDifference_pack {c : Config} {a b : Address} {m : Nat} (hframe : a.frame = b.frame)
    (hradius : a.radius = b.radius) (hm : m < 64) (h : TopDifference (latField c a.lat) (latField c b.lat) m) :
    TopDifference (pack c a) (pack c b) (64 + m) := by
  obtain ⟨hdiff, habove⟩ := h
  refine ⟨by rwa [pack_lat_bit c a hm, pack_lat_bit c b hm], fun k hk hmk => ?_⟩
  obtain hlat | hupper := Nat.lt_or_ge k 128
  · obtain ⟨j, rfl⟩ := Nat.exists_eq_add_of_le (show 64 ≤ k by omega)
    rw [pack_lat_bit c a (by omega), pack_lat_bit c b (by omega)]
    exact habove j (by omega) (by omega)
  · obtain ⟨j, rfl⟩ := Nat.exists_eq_add_of_le hupper
    rw [pack_upper_bit, pack_upper_bit, hframe, hradius]

/-- Under BIAS the latitudes -1 and 0 are the fields 89999999 and 90000000, which part at bit 7 (spec/42_comparator.md R151). -/
theorem topDifference_latField_bias {c : Config} (h : c.signConv = .bias) {x y : Field} (hx : sZ x = -1)
    (hy : sZ y = 0) : TopDifference (latField c x) (latField c y) 7 := by
  rw [latField, latField, codeField_bias h, codeField_bias h, hx, hy]
  unfold TopDifference
  decide

/-- Under BITCAST they are all ones and all zeros, which part at bit 63 (spec/42_comparator.md R151). -/
theorem topDifference_latField_bitcast {c : Config} (h : c.signConv = .bitcast) {x y : Field} (hx : sZ x = -1)
    (hy : sZ y = 0) : TopDifference (latField c x) (latField c y) 63 := by
  simp only [latField, codeField, h, hx, hy]
  unfold TopDifference
  decide

/-! The SNAP token (spec/42_comparator.md R153). -/

theorem okText_snapText (c : Config) (p : Packed) (n : Nat) : Results.okText (snapText c p n) =
    { Results.absent with
      status := some .ok, rt := some (snapText c p n), rtlen := some (BitVec.ofNat 8 (c.snapTag.length + 64)) } := by
  rw [Results.okText, snapText_length]

/-- Behind the tag stand the digits of the word with all but its top bits cleared. -/
theorem snapText_digit (c : Config) (p : Packed) (n : Nat) {i : Nat} (hi : i < 64) :
    ((snapText c p n)[c.snapTag.length + i]?).map (fun cell => cell.toNat) =
      hexAlphabet[p.toNat / 2 ^ (256 - 5 * n) * 2 ^ (256 - 5 * n) / 2 ^ (252 - 4 * i) % 16]? := by
  rw [snapText, List.getElem?_append_right (Nat.le_add_right _ i), Nat.add_sub_cancel_left,
    hexText_alphabet _ hi, nibble_toNat, truncWord_toNat]

/-- Under one tag the token and the truncated word determine each other. -/
theorem snapText_eq_iff (c : Config) (p q : Packed) (n : Nat) :
    snapText c p n = snapText c q n ↔ truncWord p n = truncWord q n := by
  rw [snapText, snapText, List.append_cancel_left_eq]
  exact ⟨hexText_inj, congrArg hexText⟩

/-! The statements of spec/42_comparator.md. -/

/-- Settles O43: EQ compares the Addresses, and packing is injective. -/
theorem eqIsExactEquality : Obligations.EqIsExactEquality := by
  refine ⟨rfl, fun s => ⟨_, exec_eq .eq s, ?_, fun c => ?_⟩⟩
  · exact (exactEqual_iff _ _).trans Address_eq_iff
  · exact (exactEqual_iff _ _).trans (pack_eq_iff c).symm

/-- Settles O44: the mask has its ones from bit `256 - 5n` up. -/
theorem truncKeepsTheTopBits : Obligations.TruncKeepsTheTopBits := fun s _ hn =>
  ⟨⟨_, exec_truncA hn s, truncWord_bit _ _⟩, ⟨_, exec_truncP hn s, truncWord_bit _ _⟩⟩

/-- Settles O45: each of the six forms checks its count before anything else. -/
theorem countsAbove51AreOutOfRange : Obligations.CountsAbove51AreOutOfRange := by
  intro s n i hi
  have hunits : unitsOf i = some n := by
    simp only [List.mem_cons, List.not_mem_nil, or_false] at hi
    obtain rfl | rfl | rfl | rfl | rfl | rfl := hi <;> rfl
  exact ⟨fun hn => exec_units_out hunits hn s, fun hn => ⟨_, exec_eq i s, opResults_units_ok hunits hn _ _⟩⟩

/-- Settles O47: the second truncation is of the word the first one delivered. -/
theorem truncationsNest : Obligations.TruncationsNest := by
  intro s1 s2 t1 n1 n2 hn1 hn2 hexec hrp
  have hp : truncWord s1.inp.p n2 = s2.inp.p := Option.some.inj ((rp_of_exec_truncP hn2 hexec).symm.trans hrp)
  refine ⟨_, _, exec_truncP hn1 s2, exec_truncP (min_le_of_left_le hn1) s1, ?_⟩
  rw [deliver_out, deliver_out, ← hp, truncWord_truncWord]

/-- Settles O48: the truncations agree exactly when the kept bits do. -/
theorem eqwComparesTheTopBits : Obligations.EqwComparesTheTopBits := fun s _ hn =>
  ⟨⟨_, exec_eqwA hn s, equalWithin_iff_bits _ _ _⟩, ⟨_, exec_eqwP hn s, equalWithin_iff_bits _ _ _⟩⟩

/-- Settles O49: a match is kept by every smaller count. -/
theorem coarserPrecisionMatchesMore : Obligations.CoarserPrecisionMatchesMore := by
  intro s n1 n2 hlt hn2
  have hn1 : n1 ≤ 51 := by omega
  constructor
  · intro t hexec hrf
    have hfine := Option.some.inj ((rf_of_exec_eqwA hn2 hexec).symm.trans hrf)
    exact ⟨_, exec_eqwA hn1 s, congrArg some (equalWithin_of_le hlt.le hfine)⟩
  · intro t hexec hrf
    have hfine := Option.some.inj ((rf_of_exec_eqwP hn2 hexec).symm.trans hrf)
    exact ⟨_, exec_eqwP hn1 s, congrArg some (equalWithin_of_le hlt.le hfine)⟩

/-- Settles O51: at 51 units the words are compared by their halves. -/
theorem finestPrecisionIgnoresOnlyBitZero : Obligations.FinestPrecisionIgnoresOnlyBitZero := by
  intro s
  refine ⟨_, exec_eqwP le_rfl s, ?_, ?_⟩ <;> rw [deliver_out, okFlag_rf, Option.some.injEq]
  · exact equalWithin_finest_iff _ _
  · rw [Option.some.injEq]
    exact Bool.eq_false_or_eq_true _

/-- Settles O52: the top 64 bits of a packed word are the frame, the top 128 frame and radius. -/
theorem coarseCountsSeeOnlyTheUpperFields : Obligations.CoarseCountsSeeOnlyTheUpperFields := fun s _ =>
  ⟨fun hn => ⟨_, exec_eqwA (hn.trans (by decide)) s, equalWithin_pack_iff_frame _ _ _ hn⟩,
    fun hn => ⟨_, exec_eqwA (hn.trans (by decide)) s, equalWithin_pack_iff_upper _ _ _ hn⟩⟩

/-- Settles O53: the words part at bit 71 under BIAS and at bit 127 under BITCAST. -/
theorem signConventionDecidesNearTheEquator : Obligations.SignConventionDecidesNearTheEquator := by
  intro s n hn halat hblat hframe hradius _
  refine ⟨_, _, exec_eqwA hn s, rfl, fun hbias => ?_, fun hcast => ?_⟩
  · rw [equalWithin_iff_of_topDifference (by decide)
      (topDifference_pack hframe hradius (by decide) (topDifference_latField_bias hbias halat hblat))]
    omega
  · rw [equalWithin_iff_of_topDifference (by decide)
      (topDifference_pack hframe hradius (by decide) (topDifference_latField_bitcast hcast halat hblat))]
    omega

/-- Settles O54: the token is the tag and the hex text of the truncated word. -/
theorem snapWritesTheTagAndTheDigits : Obligations.SnapWritesTheTagAndTheDigits := by
  intro s n hn
  refine ⟨⟨_, ?addressForm, snapText_length _ _ _, List.prefix_append _ _, fun i hi => snapText_digit _ _ _ hi⟩,
    ⟨_, ?packedForm, snapText_length _ _ _, List.prefix_append _ _, fun i hi => snapText_digit _ _ _ hi⟩⟩
  case addressForm =>
    rw [exec_snapA hn, okText_snapText]
    rfl
  case packedForm =>
    rw [exec_snapP hn, okText_snapText]
    rfl

/-- Settles O55: both say that the truncated words agree. -/
theorem tokensAgreeExactlyWhenEqwDoes : Obligations.TokensAgreeExactlyWhenEqwDoes := by
  intro s sb ta tb tf n hn hcfg hb hexeca hexecb hexecf
  rw [rt_of_exec_snapA hn hexeca, rt_of_exec_snapA hn hexecb, rf_of_exec_eqwA hn hexecf, hcfg, hb,
    Option.some.injEq, Option.some.injEq, snapText_eq_iff, equalWithin_iff]

end Sys2Proof.Machine

/-! SUPPORT. Which outcome a transaction ends with, and several hosts taking turns on one block (spec/60_exceptions.md R161 to R168, R178). -/

namespace Sys2Proof.Machine

/-! The codes on the status port (spec/60_exceptions.md R161). -/

theorem statusCode_injective : Function.Injective statusCode := by
  intro e e'
  cases e <;> cases e' <;> decide

theorem statusCode_le (e : Status) : (statusCode e).toNat ≤ 4 := by cases e <;> decide

/-- The wires carry the code of an outcome exactly when the transaction ended with that outcome. -/
theorem statusPort_eq_statusCode_iff (s : State) (e : Status) :
    statusPort s = some (statusCode e) ↔ s.out.status = some e :=
  (Option.map_injective statusCode_injective).eq_iff (b := some e)

/-! The rows of the column "can raise" (spec/10_state.md R34). -/

theorem parseError_mem_canRaise_iff (i : Instr) : .parseError ∈ canRaise i ↔ i = .fromhex := by
  cases i <;> simp [canRaise]

theorem crossFrame_mem_canRaise_iff (i : Instr) : .crossFrame ∈ canRaise i ↔ i = .sub := by
  cases i <;> simp [canRaise]

theorem precisionRange_mem_canRaise_iff (i : Instr) : .precisionRange ∈ canRaise i ↔ ∃ n, unitsOf i = some n := by
  cases i <;> simp [canRaise, unitsOf]

theorem illegalCmd_not_mem_canRaise (i : Instr) : .illegalCmd ∉ canRaise i := by
  cases i <;> simp [canRaise]

theorem drivenPorts_ne_nil (i : Instr) : drivenPorts i ≠ [] := by
  cases i <;> simp [drivenPorts]

/-! When an operation ends with each outcome (spec/60_exceptions.md R162, R163, R168). -/

theorem mem_canRaise_of_status {c : Config} {o : Operands} {i : Instr} {e : Status}
    (h : (opResults c o i).status = some e) (he : e ≠ .ok) : e ∈ canRaise i :=
  (status_opResults h).resolve_left he

/-- An error drives no port, and every row of the table drives one. -/
theorem opResults_ok_iff (c : Config) (o : Operands) (i : Instr) :
    (opResults c o i).status = some .ok ↔ presentPorts (opResults c o i) = drivenPorts i := by
  refine ⟨presentPorts_opResults, fun hports => ?_⟩
  obtain ⟨hok, -⟩ | ⟨e, -, herror⟩ := opResults_ok_or_raises c o i
  · exact hok
  · rw [herror, presentPorts_error] at hports
    exact absurd hports.symm (drivenPorts_ne_nil i)

theorem opResults_parseError_iff (c : Config) (o : Operands) (i : Instr) :
    (opResults c o i).status = some .parseError ↔ i = .fromhex ∧ parseHex c o.t o.tlen = none := by
  constructor
  · intro h
    obtain rfl := (parseError_mem_canRaise_iff i).mp (mem_canRaise_of_status h (by decide))
    refine ⟨rfl, not_not.mp fun hparses => ?_⟩
    rw [(fromhex_ok_iff c o).mpr hparses] at h
    cases h
  · rintro ⟨rfl, hnone⟩
    simp only [opResults, hnone, error_status]

theorem opResults_precisionRange_iff (c : Config) (o : Operands) (i : Instr) :
    (opResults c o i).status = some .precisionRange ↔ ∃ n, unitsOf i = some n ∧ 52 ≤ n := by
  constructor
  · intro h
    obtain ⟨n, hunits⟩ := (precisionRange_mem_canRaise_iff i).mp (mem_canRaise_of_status h (by decide))
    refine ⟨n, hunits, not_lt.mp fun hlt => ?_⟩
    rw [opResults_units_ok hunits (Nat.le_of_lt_succ hlt)] at h
    cases h
  · rintro ⟨n, hunits, hn⟩
    rw [opResults_units_out hunits hn, error_status]

theorem opResults_crossFrame_iff (c : Config) (o : Operands) (i : Instr) :
    (opResults c o i).status = some .crossFrame ↔ i = .sub ∧ o.a.frame ≠ o.b.frame := by
  constructor
  · intro h
    obtain rfl := (crossFrame_mem_canRaise_iff i).mp (mem_canRaise_of_status h (by decide))
    refine ⟨rfl, fun hsame => ?_⟩
    simp [opResults, hsame] at h
  · rintro ⟨rfl, hframes⟩
    simp only [opResults, if_neg hframes, error_status]

/-! When a step ends with each outcome (spec/60_exceptions.md R161, R164, R166). -/

/-- Every outcome but ILLEGAL_CMD is the outcome of the operation the command word selects. -/
theorem stepResults_status_iff {s : State} (hrst : s.rst = false) {e : Status} (he : e ≠ .illegalCmd) :
    (stepResults s).status = some e ↔
      ∃ i, decode s.inp.cmd = .ok i ∧ (opResults s.cfg s.inp i).status = some e := by
  cases hdecode : decode s.inp.cmd with
  | ok i => simp [stepResults_of_legal hrst hdecode]
  | error r => simp [stepResults_of_illegal hrst hdecode, he.symm]

theorem stepResults_illegalCmd_iff {s : State} (hrst : s.rst = false) :
    (stepResults s).status = some .illegalCmd ↔ ∃ r, decode s.inp.cmd = .error r := by
  cases hdecode : decode s.inp.cmd with
  | ok i =>
    rw [stepResults_of_legal hrst hdecode]
    exact iff_of_false (fun h => illegalCmd_not_mem_canRaise i (mem_canRaise_of_status h (by decide))) (by simp)
  | error r => simp [stepResults_of_illegal hrst hdecode]

theorem stepResults_ok_iff {s : State} (hrst : s.rst = false) : (stepResults s).status = some .ok ↔
    ∃ i, decode s.inp.cmd = .ok i ∧ presentPorts (stepResults s) = drivenPorts i := by
  rw [stepResults_status_iff hrst (by decide)]
  refine exists_congr fun i => and_congr_right fun hdecode => ?_
  rw [stepResults_of_legal hrst hdecode, opResults_ok_iff]

/-- Outside reset a step ends with OK, or it delivers an error and nothing else. -/
theorem stepResults_ok_or_error {s : State} (hrst : s.rst = false) :
    (stepResults s).status = some .ok ∨ ∃ e, stepResults s = Results.error e := by
  cases hdecode : decode s.inp.cmd with
  | ok i =>
    rw [stepResults_of_legal hrst hdecode]
    exact (opResults_ok_or_raises s.cfg s.inp i).imp And.left fun ⟨e, _, herror⟩ => ⟨e, herror⟩
  | error r => exact .inr ⟨_, stepResults_of_illegal hrst hdecode⟩

/-- A step that ends with an error delivers that error and nothing else. -/
theorem stepResults_eq_error {s : State} {e : Status} (hstatus : (stepResults s).status = some e) (he : e ≠ .ok) :
    stepResults s = Results.error e := by
  cases hrst : s.rst with
  | true => simp [stepResults, hrst] at hstatus
  | false =>
    obtain hok | ⟨e', herror⟩ := stepResults_ok_or_error hrst
    · exact absurd (Option.some.inj (hstatus.symm.trans hok)) he
    · rw [herror, error_status, Option.some.injEq] at hstatus
      rw [herror, hstatus]

/-! Several hosts (spec/60_exceptions.md R178). -/

/-- Each transaction of a shared run delivers to its host what it delivers alone. -/
theorem sharedRun_eq_map (issued : List (Nat × Operands)) {s : State} (hrst : s.rst = false) :
    sharedRun issued s = issued.map (Prod.map id (respond s.cfg)) := by
  induction issued generalizing s with
  | nil => rfl
  | cons transaction issued ih =>
    obtain ⟨host, o⟩ := transaction
    have hrest := ih (s := (hostAct (.transact o) s).1) (by rw [hostAct_transact_rst, hrst])
    rw [hostAct_transact_cfg] at hrest
    simp only [sharedRun, hrest, hostAct_transact_received hrst, List.map_cons, Prod.map_apply, id]

/-! The statements of spec/60_exceptions.md. -/

/-- Settles O15: each code stands for one outcome, and each outcome of a step goes back to the operation the word selects or to the word itself. -/
theorem statusSaysWhichErrorHappened : Obligations.StatusSaysWhichErrorHappened := by
  intro s t hrst hstep
  obtain rfl := step_next hstep
  have hport (e : Status) := statusPort_eq_statusCode_iff (s.deliver (stepResults s)) e
  refine ⟨(hport .ok).trans (stepResults_ok_iff hrst), (hport .parseError).trans ?parseError,
    (hport .precisionRange).trans ?precisionRange, (hport .crossFrame).trans ?crossFrame,
    (hport .illegalCmd).trans (stepResults_illegalCmd_iff hrst), ?codes⟩
  case parseError =>
    rw [deliver_out, stepResults_status_iff hrst (by decide), ← parseHex_none]
    simp only [opResults_parseError_iff, and_left_comm, exists_eq_left]
  case precisionRange =>
    rw [deliver_out, stepResults_status_iff hrst (by decide)]
    simp only [opResults_precisionRange_iff, exists_and_left]
  case crossFrame =>
    rw [deliver_out, stepResults_status_iff hrst (by decide)]
    simp only [opResults_crossFrame_iff, and_left_comm, exists_eq_left]
  case codes =>
    obtain hok | ⟨e, herror⟩ := stepResults_ok_or_error hrst
    · exact ⟨_, (hport .ok).mpr hok, statusCode_le .ok, fun hne => absurd rfl hne⟩
    · rw [herror] at hport ⊢
      exact ⟨_, (hport e).mpr rfl, statusCode_le e, fun _ => presentPorts_error e⟩

/-- Settles O16: outside reset an error is delivered alone, and in reset no status is. -/
theorem errorsLeaveOnlyTheStatus : Obligations.ErrorsLeaveOnlyTheStatus := by
  intro s t e hstep hstatus he
  obtain rfl := step_next hstep
  exact stepResults_eq_error hstatus he

/-- Settles O58: what goes back to a host is settled transaction by transaction, so dropping the others' changes nothing. -/
theorem hostsDoNotInfluenceOneAnother : Obligations.HostsDoNotInfluenceOneAnother := by
  intro h issued s hrst
  rw [sharedRun_eq_map _ hrst, sharedRun_eq_map _ hrst, List.filter_map]
  rfl

end Sys2Proof.Machine

/-! SUPPORT. Reset, and that every transaction completes (spec/70_reset_and_hazards.md R185, R196, R197). -/

namespace Sys2Proof.Machine

/-! What a step delivers in reset and outside it (spec/70_reset_and_hazards.md R185, R197). -/

theorem stepResults_of_reset {s : State} (hrst : s.rst = true) : stepResults s = Results.absent := by
  simp only [stepResults, hrst, if_true]

theorem opResults_status_ne_none (c : Config) (o : Operands) (i : Instr) : (opResults c o i).status ≠ none := by
  obtain ⟨hok, -⟩ | ⟨e, -, herror⟩ := opResults_ok_or_raises c o i
  · simp [hok]
  · simp [herror]

theorem stepResults_status_ne_none {s : State} (hrst : s.rst = false) : (stepResults s).status ≠ none := by
  obtain hok | ⟨e, herror⟩ := stepResults_ok_or_error hrst
  · simp [hok]
  · simp [herror]

/-! What each action of the host leaves, and what it receives of those that meet the block in reset. -/

/-- No action of the host touches a parameter (spec/00_scope.md R8). -/
@[simp] theorem hostAct_cfg (e : HostEvent) (s : State) : (hostAct e s).1.cfg = s.cfg := by
  cases e with
  | transact o => exact hostAct_transact_cfg o s
  | resetDuring o => simp [hostAct, takeStep_eq]
  | assertReset => simp [hostAct, takeStep_eq]
  | releaseReset => rfl

theorem hostAct_transact_received_in_reset {s : State} (hrst : s.rst = true) (o : Operands) :
    (hostAct (.transact o) s).2 = [] := by simp [hostAct, takeStep_eq, hrst]

@[simp] theorem hostAct_resetDuring_received (o : Operands) (s : State) :
    (hostAct (.resetDuring o) s).2 = [] := by simp [hostAct, takeStep_eq]

@[simp] theorem hostAct_resetDuring_rst (o : Operands) (s : State) :
    (hostAct (.resetDuring o) s).1.rst = true := by simp [hostAct, takeStep_eq]

@[simp] theorem hostAct_releaseReset_received (s : State) : (hostAct .releaseReset s).2 = [] := rfl

@[simp] theorem hostAct_releaseReset_rst (s : State) : (hostAct .releaseReset s).1.rst = false := rfl

/-! Runs in parts (spec/70_reset_and_hazards.md R188, R196). -/

@[simp] theorem hostRun_cons (e : HostEvent) (es : List HostEvent) (s : State) : hostRun (e :: es) s =
    ((hostRun es (hostAct e s).1).1, (hostAct e s).2 ++ (hostRun es (hostAct e s).1).2) := rfl

@[simp] theorem hostRun_nil (s : State) : hostRun [] s = (s, []) := rfl

/-- The later part of a run starts where the earlier part ended, and its results come behind. -/
theorem hostRun_append (es es' : List HostEvent) (s : State) : hostRun (es ++ es') s =
    ((hostRun es' (hostRun es s).1).1, (hostRun es s).2 ++ (hostRun es' (hostRun es s).1).2) := by
  induction es generalizing s with
  | nil => rfl
  | cons e es ih => simp only [List.cons_append, hostRun_cons, ih, List.append_assoc]

@[simp] theorem hostRun_cfg (es : List HostEvent) (s : State) : (hostRun es s).1.cfg = s.cfg := by
  induction es generalizing s with
  | nil => rfl
  | cons e es ih => rw [hostRun_cons, ih, hostAct_cfg]

/-- Transactions presented in reset are refused: the host receives nothing of them. -/
theorem hostRun_transacts_in_reset (ops : List Operands) {s : State} (hrst : s.rst = true) :
    (hostRun (ops.map .transact) s).2 = [] := by
  induction ops generalizing s with
  | nil => rfl
  | cons o ops ih =>
    have hrest := ih (s := (hostAct (.transact o) s).1) (by rw [hostAct_transact_rst, hrst])
    rw [List.map_cons, hostRun_cons, hrest, hostAct_transact_received_in_reset hrst, List.append_nil]

/-- Out of reset, what a run of transactions delivers depends on the parameters alone. -/
theorem hostRun_transacts_congr (ops : List Operands) {s s' : State} (hrst : s.rst = false)
    (hrst' : s'.rst = false) (hcfg : s.cfg = s'.cfg) :
    (hostRun (ops.map .transact) s).2 = (hostRun (ops.map .transact) s').2 := by
  rw [hostRun_transacts_received ops hrst, hostRun_transacts_received ops hrst', hcfg]

/-! A reset in the middle of a run (spec/70_reset_and_hazards.md R185). -/

/-- Reset asserted while `under` is under way and released after `during` have been presented. -/
def resetInterval (under : Operands) (during : List Operands) : List HostEvent :=
  .resetDuring under :: during.map .transact ++ [.releaseReset]

theorem resetInterval_received (under : Operands) (during : List Operands) (s : State) :
    (hostRun (resetInterval under during) s).2 = [] := by
  have hrefused := hostRun_transacts_in_reset during (hostAct_resetDuring_rst under s)
  simp [resetInterval, hostRun_append, hrefused]

theorem resetInterval_rst (under : Operands) (during : List Operands) (s : State) :
    (hostRun (resetInterval under during) s).1.rst = false := by
  simp [resetInterval, hostRun_append]

/-! The statements of spec/70_reset_and_hazards.md. -/

/-- Settles O57: the interval in reset delivers nothing and ends with reset released and the parameters as they were, which is all the transactions after it depend on. -/
theorem resetLeavesNoTraceInARun : Obligations.ResetLeavesNoTraceInARun := by
  intro before during after under s hrst
  have hparts : before.map HostEvent.transact ++ [.resetDuring under] ++ during.map .transact ++
      [.releaseReset] ++ after.map .transact =
      before.map .transact ++ (resetInterval under during ++ after.map .transact) := by
    simp [resetInterval]
  have hafter := hostRun_transacts_congr after (s' := { State.reset with cfg := s.cfg })
    (resetInterval_rst under during (hostRun (before.map .transact) s).1) rfl (by simp)
  rw [hparts, hostRun_append, hostRun_append, resetInterval_received, List.nil_append, hafter]

/-- Settles O9: an operation ends with OK or with one of its errors, a step outside reset with OK or with an error. -/
theorem everyTransactionCompletes : Obligations.EveryTransactionCompletes :=
  ⟨fun i s => ⟨_, exec_eq i s, opResults_status_ne_none s.cfg s.inp i⟩,
    fun s => ⟨_, step_eq s, stepResults_status_ne_none⟩⟩

/-- Settles O7: the results of a step in reset are all absent, and delivering is all a step does. -/
theorem resetAssertedDrivesNothing : Obligations.ResetAssertedDrivesNothing := by
  intro s hrst
  rw [step_eq, stepResults_of_reset hrst]
  rfl

end Sys2Proof.Machine
